-- ==== Sys2Proof/Word.lean ====
section
/-! DEFINITION. The word types of the core.

Every value of this hardware is an unsigned integer of a stated width (00_scope.md section 5); bit 0 is the least
significant bit. -/

namespace Sys2Proof

/-- 8 bits: a general register, a timer, a byte of memory (R3: `REG_W`, `TIMER_W`). -/
abbrev Byte := BitVec 8

/-- 16 bits: an instruction word, the program counter, the index register, a stack entry (R3: `PC_W`, `I_W`,
`STACK_W`). -/
abbrev Word := BitVec 16

end Sys2Proof
end

