-- ==== Sys2Proof/Machine/Flags.lean ====
section
/-! DEFINITION. What is written to VF as a flag (R12, R142). -/

namespace Sys2Proof.Machine

/-- 1 if the condition holds, else 0, as an 8-bit value (R12). -/
def flag (c : Bool) : Byte := if c then 1 else 0

/-- Carry out of the 8-bit sum `a + b`: 1 exactly when `a + b >= 256` (R136). -/
def carryOut (a b : Byte) : Byte := flag (decide (a.toNat + b.toNat > 255))

/-- No borrow out of `a − b`: 1 exactly when `a >= b` (R137, R139). -/
def noBorrow (a b : Byte) : Byte := flag (decide (a.toNat ≥ b.toNat))

/-- The bit a right shift of `b` by one shifts out (R138). -/
def lowBit (b : Byte) : Byte := b &&& 1

/-- The bit a left shift of `b` by one shifts out (R140). -/
def highBit (b : Byte) : Byte := b >>> 7

end Sys2Proof.Machine
end

