-- ==== Sys2Proof/Config.lean ====
section
/-! DEFINITION. What is fixed for the machine (R3), and the two open inputs of the spec (R4): the font bytes and the
random byte of `CXNN`. An open input has no body, so nothing can be proved about its value. -/

namespace Sys2Proof.Config

/-- MEM_SIZE (R3): bytes of memory, addresses 0x000 to 0xFFF. -/
abbrev memSize : Nat := 0x1000

/-- FONT_LEN (R3): bytes of font, at addresses FONT_BASE = 0x000 to 0x04F. -/
abbrev fontLen : Nat := 80

/-- GLYPH_BYTES (R3). -/
abbrev glyphBytes : Nat := 5

/-- ENTRY (R3): where programs load and where `pc` starts. -/
abbrev entry : Nat := 0x200

/-- MAX_ROM (R3): the largest program image that fits from ENTRY to the end of memory. -/
abbrev maxRom : Nat := 3584

/-- STACK_DEPTH (R3). -/
abbrev stackDepth : Nat := 16

/-- NKEYS (R3). -/
abbrev nKeys : Nat := 16

/-- FB_W and FB_H (R3). -/
abbrev fbWidth : Nat := 64
abbrev fbHeight : Nat := 32

/-- FONT[0..79] (R4, R45): the bytes of addresses 0x000 to 0x04F after reset. An open parameter of the spec
(decision D12), log entry 1: a free value, without a body. -/
opaque font : Fin fontLen → Byte

/-- The random byte of `CXNN` (R92), the n-th one the core uses: any 8-bit value, under no law (decision D11), log
entry 2: a free value, without a body. -/
opaque rnd : Nat → Byte

/-- The conventional CHIP-8 font that R45 recommends as the default of FONT, glyph 0 first. R45 marks it as general
knowledge and not in the source, so the model does NOT use it: a claim that needs a glyph's pixels takes
`fontIsConventional` as its premise, as R45 asks. -/
def conventionalFont : List Byte :=
  [0xF0, 0x90, 0x90, 0x90, 0xF0,  0x20, 0x60, 0x20, 0x20, 0x70,  0xF0, 0x10, 0xF0, 0x80, 0xF0,
   0xF0, 0x10, 0xF0, 0x10, 0xF0,  0x90, 0x90, 0xF0, 0x10, 0x10,  0xF0, 0x80, 0xF0, 0x10, 0xF0,
   0xF0, 0x80, 0xF0, 0x90, 0xF0,  0xF0, 0x10, 0x20, 0x40, 0x40,  0xF0, 0x90, 0xF0, 0x90, 0xF0] ++
  [0xF0, 0x90, 0xF0, 0x10, 0xF0,  0xF0, 0x90, 0xF0, 0x90, 0x90,  0xE0, 0x90, 0xE0, 0x90, 0xE0,
   0xF0, 0x80, 0x80, 0x80, 0xF0,  0xE0, 0x90, 0x90, 0x90, 0xE0,  0xF0, 0x80, 0xF0, 0x80, 0xF0,
   0xF0, 0x80, 0xF0, 0x80, 0x80]

/-- The premise `FONT is the default table of R45`. -/
def fontIsConventional : Prop := ∀ k : Fin fontLen, conventionalFont[k.val]? = some (font k)

end Sys2Proof.Config
end

