-- ==== Sys2Proof/Syntax.lean ====
section
/-! DEFINITION. The instructions: one constructor per row of the opcode map (R65, spec/opcode_table.json), in its order.
The operand types are exactly the fields of R61: every value of every variable field is legal (R68). -/

namespace Sys2Proof

/-- A general register number, 0 to 15: V0 to VF (R11). -/
abbrev Reg := Fin 16

/-- VF, the register that doubles as the flag (R12). -/
abbrev Reg.vf : Reg := 15

/-- One instruction. `x` and `y` are the register fields X and Y, `nn` the 8-bit and `nnn` the 12-bit immediate, `n`
the sprite height (R61, R63). -/
inductive Instr where
  /-- `0000`, `HALT0`: the sentinel (R66, R82). -/
  | halt0
  /-- `00E0`, `CLS` (R100). -/
  | cls
  /-- `00EE`, `RET` (R110). -/
  | ret
  /-- `1NNN`, `JP nnn` (R111). -/
  | jp (nnn : BitVec 12)
  /-- `2NNN`, `CALL nnn` (R112). -/
  | call (nnn : BitVec 12)
  /-- `3XNN`, `SE Vx, nn` (R113). -/
  | seImm (x : Reg) (nn : Byte)
  /-- `4XNN`, `SNE Vx, nn` (R114). -/
  | sneImm (x : Reg) (nn : Byte)
  /-- `5XY0`, `SE Vx, Vy` (R115). -/
  | seReg (x y : Reg)
  /-- `6XNN`, `LD Vx, nn` (R130). -/
  | ldImm (x : Reg) (nn : Byte)
  /-- `7XNN`, `ADD Vx, nn` (R131). -/
  | addImm (x : Reg) (nn : Byte)
  /-- `8XY0`, `LD Vx, Vy` (R132). -/
  | ldReg (x y : Reg)
  /-- `8XY1`, `OR Vx, Vy` (R133). -/
  | orReg (x y : Reg)
  /-- `8XY2`, `AND Vx, Vy` (R134). -/
  | andReg (x y : Reg)
  /-- `8XY3`, `XOR Vx, Vy` (R135). -/
  | xorReg (x y : Reg)
  /-- `8XY4`, `ADD Vx, Vy` (R136). -/
  | addReg (x y : Reg)
  /-- `8XY5`, `SUB Vx, Vy` (R137). -/
  | subReg (x y : Reg)
  /-- `8XY6`, `SHR Vx, Vy` (R138). -/
  | shrReg (x y : Reg)
  /-- `8XY7`, `SUBN Vx, Vy` (R139). -/
  | subnReg (x y : Reg)
  /-- `8XYE`, `SHL Vx, Vy` (R140). -/
  | shlReg (x y : Reg)
  /-- `9XY0`, `SNE Vx, Vy` (R116). -/
  | sneReg (x y : Reg)
  /-- `ANNN`, `LD I, nnn` (R150). -/
  | ldIdx (nnn : BitVec 12)
  /-- `BNNN`, `JP V0, nnn` (R117). -/
  | jpV0 (nnn : BitVec 12)
  /-- `CXNN`, `RND Vx, nn` (R141). -/
  | rnd (x : Reg) (nn : Byte)
  /-- `DXYN`, `DRW Vx, Vy, n` (R101). -/
  | drw (x y : Reg) (n : BitVec 4)
  /-- `EX9E`, `SKP Vx` (R170). -/
  | skp (x : Reg)
  /-- `EXA1`, `SKNP Vx` (R171). -/
  | sknp (x : Reg)
  /-- `FX07`, `LD Vx, DT` (R172). -/
  | ldVxDt (x : Reg)
  /-- `FX0A`, `LD Vx, K` (R173). -/
  | ldVxKey (x : Reg)
  /-- `FX15`, `LD DT, Vx` (R174). -/
  | ldDtVx (x : Reg)
  /-- `FX18`, `LD ST, Vx` (R175). -/
  | ldStVx (x : Reg)
  /-- `FX1E`, `ADD I, Vx` (R151). -/
  | addIdx (x : Reg)
  /-- `FX29`, `LD F, Vx` (R152). -/
  | ldGlyph (x : Reg)
  /-- `FX33`, `LD B, Vx` (R153). -/
  | storeBcd (x : Reg)
  /-- `FX55`, `LD [I], Vx` (R154). -/
  | storeRegs (x : Reg)
  /-- `FX65`, `LD Vx, [I]` (R155). -/
  | loadRegs (x : Reg)
  deriving DecidableEq, Repr

end Sys2Proof
end

