-- ==== Sys2Proof/Decode.lean ====
section
/-! DEFINITION. The decoder (R60 to R67), total on every word and every byte sequence, and after it the encoder, written
from the layouts of R62. -/

namespace Sys2Proof

/-! ### Bytes of a word -/

/-- The word of two bytes: `hi` in bits 15..8, `lo` in bits 7..0 (R46, R60). -/
def wordOfBytes (hi lo : Byte) : Word := hi ++ lo

/-- `w[15:8]`, the byte at the lower address. -/
def highByte (w : Word) : Byte := w.extractLsb' 8 8

/-- `w[7:0]`, the byte at the higher address. -/
def lowByte (w : Word) : Byte := w.extractLsb' 0 8

/-! ### Fields (R61) -/

/-- The primary opcode `w[15:12]`. -/
def fieldOp (w : Word) : BitVec 4 := w.extractLsb' 12 4

/-- The register number a 4-bit field holds. -/
def regOfField (f : BitVec 4) : Reg := ⟨f.toNat, f.isLt⟩

/-- The 4-bit field that holds a register number. -/
def fieldOfReg (r : Reg) : BitVec 4 := BitVec.ofNat 4 r.val

/-- X = `w[11:8]`. -/
def fieldX (w : Word) : Reg := regOfField (w.extractLsb' 8 4)

/-- Y = `w[7:4]`. -/
def fieldY (w : Word) : Reg := regOfField (w.extractLsb' 4 4)

/-- N = `w[3:0]`. -/
def fieldN (w : Word) : BitVec 4 := w.extractLsb' 0 4

/-- NN = `w[7:0]`. -/
def fieldNN (w : Word) : Byte := w.extractLsb' 0 8

/-- NNN = `w[11:0]`. -/
def fieldNNN (w : Word) : BitVec 12 := w.extractLsb' 0 12

/-! ### Decode (R64, R65) -/

/-- Primary opcode 0x0: on the whole word. The all-zero word is the sentinel (R66). -/
def decodeZero (w : Word) : Option Instr :=
  if w = 0x0000 then some .halt0
  else if w = 0x00E0 then some .cls
  else if w = 0x00EE then some .ret
  else none

/-- Primary opcode 0x8: on the low nibble. -/
def decodeAlu (w : Word) : Option Instr :=
  match (fieldN w).toNat with
  | 0x0 => some (.ldReg (fieldX w) (fieldY w))
  | 0x1 => some (.orReg (fieldX w) (fieldY w))
  | 0x2 => some (.andReg (fieldX w) (fieldY w))
  | 0x3 => some (.xorReg (fieldX w) (fieldY w))
  | 0x4 => some (.addReg (fieldX w) (fieldY w))
  | 0x5 => some (.subReg (fieldX w) (fieldY w))
  | 0x6 => some (.shrReg (fieldX w) (fieldY w))
  | 0x7 => some (.subnReg (fieldX w) (fieldY w))
  | 0xE => some (.shlReg (fieldX w) (fieldY w))
  | _ => none

/-- Primary opcode 0xE: on the low byte. -/
def decodeKeys (w : Word) : Option Instr :=
  if fieldNN w = 0x9E then some (.skp (fieldX w))
  else if fieldNN w = 0xA1 then some (.sknp (fieldX w))
  else none

/-- Primary opcode 0xF: on the low byte. -/
def decodeMisc (w : Word) : Option Instr :=
  if fieldNN w = 0x07 then some (.ldVxDt (fieldX w))
  else if fieldNN w = 0x0A then some (.ldVxKey (fieldX w))
  else if fieldNN w = 0x15 then some (.ldDtVx (fieldX w))
  else if fieldNN w = 0x18 then some (.ldStVx (fieldX w))
  else if fieldNN w = 0x1E then some (.addIdx (fieldX w))
  else if fieldNN w = 0x29 then some (.ldGlyph (fieldX w))
  else if fieldNN w = 0x33 then some (.storeBcd (fieldX w))
  else if fieldNN w = 0x55 then some (.storeRegs (fieldX w))
  else if fieldNN w = 0x65 then some (.loadRegs (fieldX w))
  else none

/-- The instruction of a word: dispatch on the high nibble, then as R64's table says; `none` for an illegal word
(R67). -/
def decodeWord (w : Word) : Option Instr :=
  match (fieldOp w).toNat with
  | 0x0 => decodeZero w
  | 0x1 => some (.jp (fieldNNN w))
  | 0x2 => some (.call (fieldNNN w))
  | 0x3 => some (.seImm (fieldX w) (fieldNN w))
  | 0x4 => some (.sneImm (fieldX w) (fieldNN w))
  | 0x5 => if fieldN w = 0 then some (.seReg (fieldX w) (fieldY w)) else none
  | 0x6 => some (.ldImm (fieldX w) (fieldNN w))
  | 0x7 => some (.addImm (fieldX w) (fieldNN w))
  | 0x8 => decodeAlu w
  | 0x9 => if fieldN w = 0 then some (.sneReg (fieldX w) (fieldY w)) else none
  | 0xA => some (.ldIdx (fieldNNN w))
  | 0xB => some (.jpV0 (fieldNNN w))
  | 0xC => some (.rnd (fieldX w) (fieldNN w))
  | 0xD => some (.drw (fieldX w) (fieldY w) (fieldN w))
  | 0xE => decodeKeys w
  | 0xF => decodeMisc w
  | _ => none

/-- Decoding a byte sequence: the first two bytes, high byte first (R46, R60), and the bytes after them. -/
def decodeBytes : List Byte → Option (Instr × List Byte)
  | hi :: lo :: rest => (decodeWord (wordOfBytes hi lo)).map fun i => (i, rest)
  | _ => none

/-! ### Encode (R62, R65) -/

/-- Format XY: `op X Y fn`. -/
def wordXY (op : BitVec 4) (x y : Reg) (fn : BitVec 4) : Word := op ++ fieldOfReg x ++ fieldOfReg y ++ fn

/-- Formats XNN and X: `op X NN`. -/
def wordXNN (op : BitVec 4) (x : Reg) (nn : Byte) : Word := op ++ fieldOfReg x ++ nn

/-- Format NNN: `op NNN`. -/
def wordNNN (op : BitVec 4) (nnn : BitVec 12) : Word := op ++ nnn

/-- The word of an instruction. -/
def encode : Instr → Word
  | .halt0 => 0x0000
  | .cls => 0x00E0
  | .ret => 0x00EE
  | .jp nnn => wordNNN 0x1 nnn
  | .call nnn => wordNNN 0x2 nnn
  | .seImm x nn => wordXNN 0x3 x nn
  | .sneImm x nn => wordXNN 0x4 x nn
  | .seReg x y => wordXY 0x5 x y 0x0
  | .ldImm x nn => wordXNN 0x6 x nn
  | .addImm x nn => wordXNN 0x7 x nn
  | .ldReg x y => wordXY 0x8 x y 0x0
  | .orReg x y => wordXY 0x8 x y 0x1
  | .andReg x y => wordXY 0x8 x y 0x2
  | .xorReg x y => wordXY 0x8 x y 0x3
  | .addReg x y => wordXY 0x8 x y 0x4
  | .subReg x y => wordXY 0x8 x y 0x5
  | .shrReg x y => wordXY 0x8 x y 0x6
  | .subnReg x y => wordXY 0x8 x y 0x7
  | .shlReg x y => wordXY 0x8 x y 0xE
  | .sneReg x y => wordXY 0x9 x y 0x0
  | .ldIdx nnn => wordNNN 0xA nnn
  | .jpV0 nnn => wordNNN 0xB nnn
  | .rnd x nn => wordXNN 0xC x nn
  | .drw x y n => wordXY 0xD x y n
  | .skp x => wordXNN 0xE x 0x9E
  | .sknp x => wordXNN 0xE x 0xA1
  | .ldVxDt x => wordXNN 0xF x 0x07
  | .ldVxKey x => wordXNN 0xF x 0x0A
  | .ldDtVx x => wordXNN 0xF x 0x15
  | .ldStVx x => wordXNN 0xF x 0x18
  | .addIdx x => wordXNN 0xF x 0x1E
  | .ldGlyph x => wordXNN 0xF x 0x29
  | .storeBcd x => wordXNN 0xF x 0x33
  | .storeRegs x => wordXNN 0xF x 0x55
  | .loadRegs x => wordXNN 0xF x 0x65

/-- The two bytes of an instruction as memory holds them, high byte first (R60). -/
def encodeBytes (i : Instr) : List Byte := [highByte (encode i), lowByte (encode i)]

/-! ### The host's view of the decoder -/

/-- The two bytes, as the hardware stores them, of an instruction that spec/opcode_table.json numbers as `w`, of which it
gives `nbits` bits; bits above `nbits` are 0. -/
def tableBytes (nbits w : Nat) : List Byte :=
  let word : Word := BitVec.ofNat 16 (w % 2 ^ nbits)
  [highByte word, lowByte word]

/-- The instruction the decoder reads from an instruction whose bits spec/opcode_table.json numbers as `w`. -/
def decodeTableWord (nbits w : Nat) : Option Instr := (decodeBytes (tableBytes nbits w)).map (·.1)

end Sys2Proof
end

