-- ==== Sys2Proof/Machine/State.lean ====
section
/-! DEFINITION. The state of the core, exactly the fifteen elements of R10; the state that `step` acts on, which is the
core's and the supply of the open input `rnd` (log entry 2); the faults of R210; the state after reset (R24, R241). -/

namespace Sys2Proof.Machine

/-- The faults of R210, each with the info it records. They are what the fault latch holds (R21). No step ANSWERS one
of them as its outcome: raising a fault is a next state with the latch set (R217, log entry 3), so nothing is lost of
what the spec says a faulted core does. That is safe: it is the spec's own description of fault entry. -/
inductive Fault where
  /-- Code 1. Raised by fetch, `DXYN`, `FX33`, `FX55`, `FX65` and the host's `load`: the first out-of-bounds address,
  at least 0x1000 (R211). Safe: the spec's own fault. -/
  | memOutOfBounds (addr : Nat)
  /-- Code 2. Raised by `2NNN` with sixteen entries in use: the instruction word (R212). Safe: the spec's own fault. -/
  | stackOverflow (w : Word)
  /-- Code 3. Raised by `00EE` with no entry in use: the instruction word (R213). Safe: the spec's own fault. -/
  | stackUnderflow (w : Word)
  /-- Code 4. Raised by decode of a word that matches no pattern: the word (R214). Safe: the spec's own fault. -/
  | illegalOpcode (w : Word)
  /-- Code 5. Raised by `EX9E` and `EXA1` with a register value above 15: the value (R215). Safe: the spec's own
  fault. -/
  | badKeyIndex (v : Byte)
  deriving DecidableEq, Repr

/-- Why the model gives an instruction no meaning. -/
inductive Refusal where
  /-- An arm of `exec` whose instruction has no meaning yet. Raised by no arm of this model. Safe: it stops where the
  hardware goes on. -/
  | notModelled (mnemonic : String)
  deriving DecidableEq, Repr

/-- The memory (R22, R40) as the list of the cells that differ from what an unlisted address reads as; its one
canonical form is `Memory.wf` of Machine/Ops.lean. -/
abbrev Memory := List Host.Cell

/-- The framebuffer (R17), a grid of 64 by 32 one-bit pixels: bit `px` of row `py` is `FB[px + py*64]`. -/
abbrev Screen := Vector (BitVec 64) 32

/-- The complete state of the core: exactly the fifteen elements of R10. -/
structure CoreState where
  /-- `mem[0..4095]` (R22, R40). -/
  mem : Memory
  /-- `x[0..15]`: V0 to VF (R11, R12). -/
  v : Vector Byte 16
  /-- `I`, the index register; all 16 bits are held (R13). -/
  idx : Word
  /-- `pc`: the address of the first byte of the instruction to execute (R14). -/
  pc : Word
  /-- `stack[0..15]` (R15). -/
  stack : Vector Word 16
  /-- `SP`, the number of stack entries in use, 0 to 16 only (R15, R27; log entry 6). -/
  sp : Fin 17
  /-- `DT`, the delay timer (R16). -/
  dt : Byte
  /-- `ST`, the sound timer (R16). -/
  st : Byte
  /-- `FB[0..2047]` (R17; log entry 7). -/
  fb : Screen
  /-- `draw_flag` (R18). -/
  drawFlag : Bool
  /-- `K[0..15]`, true = pressed (R19). -/
  keys : Vector Bool 16
  /-- `waiting`: true = AwaitingKey, false = Idle (R20, R176). -/
  waiting : Bool
  /-- `key_value`, the key delivered while waiting (R20). -/
  keyValue : BitVec 4
  /-- `key_notify`: a key arrived while waiting (R20). -/
  keyNotify : Bool
  /-- `fault`, the fatal-error latch (R21). -/
  fault : Option Fault
  deriving DecidableEq, Repr

/-- What `step` acts on: the core's state, and beside it the supply of draws. The draw `rnd` is an input of each `Step`
and no state (R23, R92), and the type of `step` has no place for an input, so it stands here. `CoreState.step` of
Machine/HostInterface.lean is `Step(rnd)` on the core's state alone. -/
structure State extends CoreState where
  /-- The model's own, not the spec's (log entry 2): draws that are given, the next one first. -/
  rndIn : List Byte
  /-- The model's own, not the spec's (log entry 2): how many draws have been used. Where `rndIn` gives none, the draw is
  the free value `Config.rnd` of this count. -/
  draws : Nat
  deriving DecidableEq, Repr

/-- The state of the core after reset (R24, R241): the font is what memory with nothing listed reads as (log entry 8),
`pc` is the entry point 0x200, everything else is zero. -/
def CoreState.reset : CoreState where
  mem := []
  v := Vector.replicate 16 0
  idx := 0
  pc := 0x200
  stack := Vector.replicate 16 0
  sp := 0
  dt := 0
  st := 0
  fb := Vector.replicate 32 0
  drawFlag := false
  keys := Vector.replicate 16 false
  waiting := false
  keyValue := 0
  keyNotify := false
  fault := none

/-- The core after reset, with no draw given and none used (log entry 2). -/
def State.reset : State where
  toCoreState := CoreState.reset
  rndIn := []
  draws := 0

end Sys2Proof.Machine
end

