-- ==== Sys2Proof/Machine/Ops.lean ====
section
/-! DEFINITION. The named operations over the state that every meaning is written with: memory (R40 to R55), registers
(R11), the program counter (R84, R118), the call stack (R15), the screen (R17), the timers (R85), the draw (R92), and
raising a fault (R217), which is this hardware's one way of taking an exception. There is no return from a fault
(R218): only the host's reset leaves it. -/

namespace Sys2Proof.Machine

/-! ### The memory as data -/

/-- What an address reads as when memory lists nothing for it: the reset contents (R24), FONT at 0x000 to 0x04F and
zero above (log entries 1 and 8). -/
def Memory.blank (a : Nat) : Byte := if h : a < Config.fontLen then Config.font ⟨a, h⟩ else 0

/-- `mem[a]`. -/
def Memory.read : Memory → Nat → Byte
  | [], a => Memory.blank a
  | (b, v) :: m, a => if a = b then v else Memory.read m a

/-- `mem` with nothing listed at `a`. -/
def Memory.erase (m : Memory) (a : Nat) : Memory := m.filter fun c => c.1 ≠ a

/-- `mem` with `v` listed at `a`, before the first greater address. -/
def Memory.insert : Memory → Nat → Byte → Memory
  | [], a, v => [(a, v)]
  | (b, w) :: m, a, v => if a < b then (a, v) :: (b, w) :: m else (b, w) :: Memory.insert m a v

/-- `mem[a] <- v`, in the canonical form: a value that an unlisted address reads as is not listed. -/
def Memory.write (m : Memory) (a : Nat) (v : Byte) : Memory :=
  if v = Memory.blank a then m.erase a else (m.erase a).insert a v

/-- Addresses strictly rising from `lo`, all below 0x1000, and no entry equal to what an unlisted address reads as. -/
def Memory.wfFrom : Nat → Memory → Bool
  | _, [] => true
  | lo, (a, v) :: m =>
    decide (lo ≤ a) && decide (a < Config.memSize) && decide (v ≠ Memory.blank a) && Memory.wfFrom (a + 1) m

/-- The canonical form of memory. -/
def Memory.wf (m : Memory) : Bool := Memory.wfFrom 0 m

/-! ### Raising a fault -/

/-- `raise f` on the state at the start of the transition (R217): the latch takes the fault unless it already holds one,
and nothing else changes. -/
def State.raise (s : State) (f : Fault) : State := { s with fault := s.fault <|> some f }

/-- The end of an execute phase whose checks may have raised (R88): the state it reached, or the state it started from
with the fault raised. -/
def State.commit (s : State) : Except Fault State → Host.Outcome State Fault Refusal
  | .ok t => .next t
  | .error f => .next (s.raise f)

/-- The numeric code of the latch (R210): 0 is no fault. -/
def faultCode : Option Fault → Nat
  | none => 0
  | some (.memOutOfBounds _) => 1
  | some (.stackOverflow _) => 2
  | some (.stackUnderflow _) => 3
  | some (.illegalOpcode _) => 4
  | some (.badKeyIndex _) => 5

/-! ### Memory accesses -/

/-- `MemRead(a, 1)` (R41). -/
def State.memRead (s : State) (a : Nat) : Except Fault Byte :=
  if Config.memSize ≤ a then .error (.memOutOfBounds a) else .ok (Memory.read s.mem a)

/-- `MemWrite(a, 1, v)` (R42). -/
def State.memWrite (s : State) (a : Nat) (v : Byte) : Except Fault State :=
  if Config.memSize ≤ a then .error (.memOutOfBounds a) else .ok { s with mem := Memory.write s.mem a v }

/-- `MemRead(a + k, 1)` for `k` from 0 to `n − 1`, ascending; the first address out of bounds raises (R43, R55). -/
def State.readBytes (s : State) : Nat → Nat → Except Fault (List Byte)
  | _, 0 => .ok []
  | a, n + 1 =>
    match s.memRead a with
    | .error f => .error f
    | .ok b =>
      match s.readBytes (a + 1) n with
      | .error f => .error f
      | .ok bs => .ok (b :: bs)

/-- `MemWrite(a + k, 1, bs[k])` for `k` from 0, ascending; the first address out of bounds raises, and then `commit`
keeps none of the writes (R55). -/
def State.writeBytes (s : State) : Nat → List Byte → Except Fault State
  | _, [] => .ok s
  | a, b :: bs =>
    match s.memWrite a b with
    | .error f => .error f
    | .ok t => t.writeBytes (a + 1) bs

/-! ### Registers -/

/-- `x[r]`. -/
def State.reg (s : State) (r : Reg) : Byte := s.v[r.val]

/-- `x[r] <- b`. No register is hard-wired (R11). -/
def State.setReg (s : State) (r : Reg) (b : Byte) : State := { s with v := s.v.set r.val b }

/-- `I <- w`. -/
def State.setIdx (s : State) (w : Word) : State := { s with idx := w }

/-- `x[k] <- bs[k]` for `k` from `k₀` upward; there are sixteen registers. -/
def State.setRegsFrom (s : State) : Nat → List Byte → State
  | _, [] => s
  | k, b :: bs => (if h : k < 16 then s.setReg ⟨k, h⟩ b else s).setRegsFrom (k + 1) bs

/-- `x[0]` to `x[n − 1]`, in that order. -/
def State.firstRegs (s : State) (n : Nat) : List Byte := s.v.toList.take n

/-! ### The program counter -/

/-- `pc <- target`. -/
def State.jump (s : State) (target : Word) : State := { s with pc := target }

/-- `Next` (R84): `pc <- trunc_16(pc + 2)`. -/
def State.advance (s : State) : State := { s with pc := s.pc + 2 }

/-- `Skip(c)` (R118). -/
def State.skip (s : State) (c : Bool) : State := { s with pc := if c then s.pc + 4 else s.pc + 2 }

/-! ### The call stack -/

/-- Push (R15): `none` when sixteen entries are in use. -/
def State.push (s : State) (w : Word) : Option State :=
  if h : s.sp.val < 16 then
    some { s with stack := s.stack.set s.sp.val w, sp := ⟨s.sp.val + 1, by omega⟩ }
  else none

/-- Pop (R15): the entry popped and the state without it, `none` when no entry is in use. The cell keeps its content. -/
def State.pop (s : State) : Option (Word × State) :=
  if h : 0 < s.sp.val then
    some (s.stack[s.sp.val - 1]'(by omega), { s with sp := ⟨s.sp.val - 1, by omega⟩ })
  else none

/-! ### The screen -/

/-- `FB[px + py*64]`. -/
def Screen.pixel (f : Screen) (px : Fin 64) (py : Fin 32) : Bool := f[py.val].getLsbD px.val

/-- `FB[k]`, cell `k = px + py*64` (R17). -/
def Screen.cell (f : Screen) (k : Fin 2048) : Bool :=
  f.pixel ⟨k.val % 64, Nat.mod_lt _ (by decide)⟩ ⟨k.val / 64, by omega⟩

/-- `FB[px + py*64] <- FB[px + py*64] XOR 1`. -/
def Screen.flip (f : Screen) (px : Fin 64) (py : Fin 32) : Screen :=
  f.set py.val (f[py.val] ^^^ BitVec.twoPow 64 px.val)

/-- All 2048 cells 0. -/
def Screen.clear : Screen := Vector.replicate 32 0

/-- Column `vx + c`, reduced modulo 64 (R102). -/
def column (vx : Byte) (c : Nat) : Fin 64 := ⟨(vx.toNat + c) % 64, Nat.mod_lt _ (by decide)⟩

/-- Row `vy + r`, reduced modulo 32 (R102). -/
def row (vy : Byte) (r : Nat) : Fin 32 := ⟨(vy.toNat + r) % 32, Nat.mod_lt _ (by decide)⟩

/-- One set sprite bit on the screen so far and the collision so far (R101): the pixel is flipped, and one that was 1
is a collision. -/
def plot (acc : Screen × Bool) (px : Fin 64) (py : Fin 32) : Screen × Bool :=
  (acc.1.flip px py, acc.2 || acc.1.pixel px py)

/-- Row `r` of a sprite at `(vx, vy)`: `c` from 0 to 7, bit `7 − c` of the row's byte (R101, R103). -/
def drawRow (vx vy : Byte) (r : Nat) (bits : Byte) (acc : Screen × Bool) : Screen × Bool :=
  (List.range 8).foldl
    (fun acc c => if bits.getLsbD (7 - c) then plot acc (column vx c) (row vy r) else acc) acc

/-- The rows of a sprite at `(vx, vy)`, the first of them row `r` (R101). -/
def drawRows (vx vy : Byte) : Nat → List Byte → Screen × Bool → Screen × Bool
  | _, [], acc => acc
  | r, bits :: rest, acc => drawRows vx vy (r + 1) rest (drawRow vx vy r bits acc)

/-- The screen of a state changed to `f`, and marked dirty: `draw_flag <- 1` (R104). -/
def State.setScreen (s : State) (f : Screen) : State := { s with fb := f, drawFlag := true }

/-! ### Timers, the draw and the key-wait state -/

/-- `DT <- b`. -/
def State.setDt (s : State) (b : Byte) : State := { s with dt := b }

/-- `ST <- b`. -/
def State.setSt (s : State) (b : Byte) : State := { s with st := b }

/-- One count down, floor at 0 (R16). -/
def countDown (t : Byte) : Byte := if t = 0 then 0 else t - 1

/-- `TimerDecay` (R85). -/
def State.timerDecay (s : State) : State := { s with dt := countDown s.dt, st := countDown s.st }

/-- `rnd`, the draw of this cycle (R92): the one that is given, else the free value (log entry 2). -/
def State.draw (s : State) : Byte := s.rndIn.headD (Config.rnd s.draws)

/-- The draw of this cycle has been used; the next one is another. -/
def State.drawUsed (s : State) : State := { s with rndIn := s.rndIn.tail, draws := s.draws + 1 }

/-- `K[k]`. -/
def State.key (s : State) (k : Fin 16) : Bool := s.keys[k.val]

/-- `waiting <- 1`: Idle to AwaitingKey (R177). -/
def State.awaitKey (s : State) : State := { s with waiting := true }

/-- `waiting <- 0; key_notify <- 0`: AwaitingKey to Idle (R177). -/
def State.idle (s : State) : State := { s with waiting := false, keyNotify := false }

end Sys2Proof.Machine
end

