-- ==== Sys2Proof/Machine/Operands.lean ====
section
/-! DEFINITION. The operand forms (R63): zero-extended immediates, the effective address `I + k` (R43), the address of a
glyph (R152), the decimal digits of `FX33` (R153), the key a register names (R170). There is no other operand form. -/

namespace Sys2Proof.Machine

/-- `zext_16(NNN)` (R63). -/
def addressOf (nnn : BitVec 12) : Word := nnn.zeroExtend 16

/-- The target of `BNNN` (R117): `trunc_16(zext_16(NNN) + zext_16(x[0]))`. -/
def offsetTarget (nnn : BitVec 12) (v0 : Byte) : Word := addressOf nnn + v0.zeroExtend 16

/-- The base of the accesses `I + k`, a natural number that does not wrap (R43). -/
def State.base (s : State) : Nat := s.idx.toNat

/-- How many registers `V0` to `VX` are: X + 1 (R154, R155). -/
def regCount (x : Reg) : Nat := x.val + 1

/-- `5 * zext_16(v)`, the whole register, unmasked (R152). -/
def glyphAddress (v : Byte) : Word := 5 * v.zeroExtend 16

/-- Hundreds, tens and ones of `v`, one byte each (R153). -/
def decimalDigits (v : Byte) : List Byte :=
  [BitVec.ofNat 8 (v.toNat / 100), BitVec.ofNat 8 (v.toNat / 10 % 10), BitVec.ofNat 8 (v.toNat % 10)]

/-- The key that a register value names, or the fault it raises (R170, R215). -/
def keyIndex (v : Byte) : Except Fault (Fin 16) :=
  if h : v.toNat < 16 then .ok ⟨v.toNat, h⟩ else .error (.badKeyIndex v)

/-- `zext_8(key_value)` (R173). -/
def keyCode (k : BitVec 4) : Byte := k.zeroExtend 8

end Sys2Proof.Machine
end

