-- ==== Sys2Proof/Machine/Alu.lean ====
section
/-! DEFINITION. Register and ALU instructions (43_alu.md). Operands are read from the state at the start, writes are
applied in the order the rule lists them, the later one winning when X = 15 (R89, R143). -/

namespace Sys2Proof.Machine

/-- `x[X] <- b; Next`. -/
def State.load (s : State) (x : Reg) (b : Byte) : Host.Outcome State Fault Refusal := .next (s.setReg x b).advance

/-- `x[X] <- result; x[15] <- f; Next`: the order of `8XY4`, `8XY5`, `8XY7` (R143). -/
def State.loadThenFlag (s : State) (x : Reg) (result f : Byte) : Host.Outcome State Fault Refusal :=
  .next ((s.setReg x result).setReg .vf f).advance

/-- `x[15] <- f; x[X] <- result; Next`: the order of `8XY6`, `8XYE` (R143). -/
def State.flagThenLoad (s : State) (x : Reg) (result f : Byte) : Host.Outcome State Fault Refusal :=
  .next ((s.setReg .vf f).setReg x result).advance

/-- `6XNN` (R130). -/
def execLdImm (x : Reg) (nn : Byte) (s : State) : Host.Outcome State Fault Refusal := s.load x nn

/-- `7XNN` (R131): no flag. -/
def execAddImm (x : Reg) (nn : Byte) (s : State) : Host.Outcome State Fault Refusal := s.load x (s.reg x + nn)

/-- `8XY0` (R132). -/
def execLdReg (x y : Reg) (s : State) : Host.Outcome State Fault Refusal := s.load x (s.reg y)

/-- `8XY1` (R133). -/
def execOr (x y : Reg) (s : State) : Host.Outcome State Fault Refusal := s.load x (s.reg x ||| s.reg y)

/-- `8XY2` (R134). -/
def execAnd (x y : Reg) (s : State) : Host.Outcome State Fault Refusal := s.load x (s.reg x &&& s.reg y)

/-- `8XY3` (R135). -/
def execXor (x y : Reg) (s : State) : Host.Outcome State Fault Refusal := s.load x (s.reg x ^^^ s.reg y)

/-- `8XY4` (R136). -/
def execAdd (x y : Reg) (s : State) : Host.Outcome State Fault Refusal :=
  s.loadThenFlag x (s.reg x + s.reg y) (carryOut (s.reg x) (s.reg y))

/-- `8XY5` (R137). -/
def execSub (x y : Reg) (s : State) : Host.Outcome State Fault Refusal :=
  s.loadThenFlag x (s.reg x - s.reg y) (noBorrow (s.reg x) (s.reg y))

/-- `8XY6` (R138): the source is VY. -/
def execShr (x y : Reg) (s : State) : Host.Outcome State Fault Refusal :=
  s.flagThenLoad x (s.reg y >>> 1) (lowBit (s.reg y))

/-- `8XY7` (R139). -/
def execSubn (x y : Reg) (s : State) : Host.Outcome State Fault Refusal :=
  s.loadThenFlag x (s.reg y - s.reg x) (noBorrow (s.reg y) (s.reg x))

/-- `8XYE` (R140): the source is VY. -/
def execShl (x y : Reg) (s : State) : Host.Outcome State Fault Refusal :=
  s.flagThenLoad x (s.reg y <<< 1) (highBit (s.reg y))

/-- `CXNN` (R141), with the draw of this cycle (R92). -/
def execRnd (x : Reg) (nn : Byte) (s : State) : Host.Outcome State Fault Refusal :=
  s.drawUsed.load x (nn &&& s.draw)

end Sys2Proof.Machine
end

