-- ==== Sys2Proof/Machine/ControlFlow.lean ====
section
/-! DEFINITION. Control transfer (42_control_flow.md). `pc` is the address of the instruction being executed (R14). -/

namespace Sys2Proof.Machine

/-- `00EE` (R110). The fault records the instruction word (R213). -/
def execRet (s : State) : Host.Outcome State Fault Refusal :=
  s.commit <| match s.pop with
    | some (target, t) => .ok (t.jump target)
    | none => .error (.stackUnderflow (encode .ret))

/-- `1NNN` (R111). -/
def execJp (nnn : BitVec 12) (s : State) : Host.Outcome State Fault Refusal := .next (s.jump (addressOf nnn))

/-- `2NNN` (R112). The fault records the instruction word (R212). -/
def execCall (nnn : BitVec 12) (s : State) : Host.Outcome State Fault Refusal :=
  s.commit <| match s.push (s.pc + 2) with
    | some t => .ok (t.jump (addressOf nnn))
    | none => .error (.stackOverflow (encode (.call nnn)))

/-- `3XNN` (R113). -/
def execSeImm (x : Reg) (nn : Byte) (s : State) : Host.Outcome State Fault Refusal :=
  .next (s.skip (s.reg x == nn))

/-- `4XNN` (R114). -/
def execSneImm (x : Reg) (nn : Byte) (s : State) : Host.Outcome State Fault Refusal :=
  .next (s.skip (s.reg x != nn))

/-- `5XY0` (R115). -/
def execSeReg (x y : Reg) (s : State) : Host.Outcome State Fault Refusal :=
  .next (s.skip (s.reg x == s.reg y))

/-- `9XY0` (R116). -/
def execSneReg (x y : Reg) (s : State) : Host.Outcome State Fault Refusal :=
  .next (s.skip (s.reg x != s.reg y))

/-- `BNNN` (R117): the offset register is always V0. -/
def execJpV0 (nnn : BitVec 12) (s : State) : Host.Outcome State Fault Refusal :=
  .next (s.jump (offsetTarget nnn (s.reg 0)))

end Sys2Proof.Machine
end

