-- ==== Sys2Proof/Machine/Display.lean ====
section
/-! DEFINITION. Display instructions (41_display.md). -/

namespace Sys2Proof.Machine

/-- `00E0` (R100): VF is not written. -/
def execCls (s : State) : Host.Outcome State Fault Refusal := .next (s.setScreen Screen.clear).advance

/-- What `DXYN` does once its rows are read (R101): the rows are drawn at the coordinates the registers had at the
start, VF becomes the collision flag, `draw_flag` is set. -/
def State.drawSprite (s : State) (vx vy : Byte) (rows : List Byte) : State :=
  let drawn := drawRows vx vy 0 rows (s.fb, false)
  ((s.setReg .vf (flag drawn.2)).setScreen drawn.1).advance

/-- `DXYN` (R101). -/
def execDrw (x y : Reg) (n : BitVec 4) (s : State) : Host.Outcome State Fault Refusal :=
  s.commit ((s.readBytes s.base n.toNat).map (s.drawSprite (s.reg x) (s.reg y)))

end Sys2Proof.Machine
end

