-- ==== Sys2Proof/Machine/IndexMemory.lean ====
section
/-! DEFINITION. Index-register and memory instructions (44_index_memory.md). `FX33`, `FX55` and `FX65` do not change `I`
(R156); one that faults writes nothing (R55). -/

namespace Sys2Proof.Machine

/-- `ANNN` (R150). -/
def execLdIdx (nnn : BitVec 12) (s : State) : Host.Outcome State Fault Refusal :=
  .next (s.setIdx (addressOf nnn)).advance

/-- `FX1E` (R151): 16-bit wrap, no flag. -/
def execAddIdx (x : Reg) (s : State) : Host.Outcome State Fault Refusal :=
  .next (s.setIdx (s.idx + (s.reg x).zeroExtend 16)).advance

/-- `FX29` (R152). -/
def execLdGlyph (x : Reg) (s : State) : Host.Outcome State Fault Refusal :=
  .next (s.setIdx (glyphAddress (s.reg x))).advance

/-- `FX33` (R153). -/
def execStoreBcd (x : Reg) (s : State) : Host.Outcome State Fault Refusal :=
  s.commit ((s.writeBytes s.base (decimalDigits (s.reg x))).map (·.advance))

/-- `FX55` (R154). -/
def execStoreRegs (x : Reg) (s : State) : Host.Outcome State Fault Refusal :=
  s.commit ((s.writeBytes s.base (s.firstRegs (regCount x))).map (·.advance))

/-- `FX65` (R155). -/
def execLoadRegs (x : Reg) (s : State) : Host.Outcome State Fault Refusal :=
  s.commit ((s.readBytes s.base (regCount x)).map fun bs => (s.setRegsFrom 0 bs).advance)

end Sys2Proof.Machine
end

