-- ==== Sys2Proof/Machine/KeysTimers.lean ====
section
/-! DEFINITION. Key and timer instructions and the key-wait state machine (45_keys_timers.md). -/

namespace Sys2Proof.Machine

/-- `EX9E` (R170): the key state is read, not consumed. -/
def execSkp (x : Reg) (s : State) : Host.Outcome State Fault Refusal :=
  s.commit ((keyIndex (s.reg x)).map fun k => s.skip (s.key k))

/-- `EXA1` (R171). -/
def execSknp (x : Reg) (s : State) : Host.Outcome State Fault Refusal :=
  s.commit ((keyIndex (s.reg x)).map fun k => s.skip (!s.key k))

/-- `FX07` (R172): `DT` as it is before this cycle's decay. -/
def execLdVxDt (x : Reg) (s : State) : Host.Outcome State Fault Refusal := .next (s.setReg x s.dt).advance

/-- One cycle of `FX0A` (R173): entry, spin or completion. Which of them decays the timers is the sequencer's (R86). -/
def execLdVxKey (x : Reg) (s : State) : Host.Outcome State Fault Refusal :=
  if s.waiting then
    if s.keyNotify then .next ((s.setReg x (keyCode s.keyValue)).idle).advance else .next s
  else .next s.awaitKey

/-- `FX15` (R174): the cycle's own decay then acts on the value written. -/
def execLdDtVx (x : Reg) (s : State) : Host.Outcome State Fault Refusal := .next (s.setDt (s.reg x)).advance

/-- `FX18` (R175): the cycle's own decay then acts on the value written. -/
def execLdStVx (x : Reg) (s : State) : Host.Outcome State Fault Refusal := .next (s.setSt (s.reg x)).advance

end Sys2Proof.Machine
end

