-- ==== Sys2Proof/Machine/Sequencer.lean ====
section
/-! DEFINITION. The cycle of fetch, decode, execute and timer decay (40_sequencer.md), around an execute phase that it is
given, and the sentinel. -/

namespace Sys2Proof.Machine

/-- `0000` (R82): no write at all. -/
def execHalt0 (s : State) : Host.Outcome State Fault Refusal := .next s

/-- Fetch (R81): the bytes at `pc` and `pc + 1`, in that order, each bounds-checked, combined big-endian (R46). -/
def State.fetch (s : State) : Except Fault Word :=
  match s.memRead s.pc.toNat with
  | .error f => .error f
  | .ok hi =>
    match s.memRead (s.pc.toNat + 1) with
    | .error f => .error f
    | .ok lo => .ok (wordOfBytes hi lo)

/-- Whether a cycle that executed `i` from `before` decays the timers (R86): not for the sentinel, and not for an `FX0A`
that was already waiting. -/
def decays (i : Instr) (before : State) : Bool :=
  match i with
  | .halt0 => false
  | .ldVxKey _ => !before.waiting
  | _ => true

/-- The last phase of a cycle that executed `i` from `before` and reached `after`: `TimerDecay` unless the cycle raised a
fault or is one that does not decay (R85, R86). -/
def endOfCycle (i : Instr) (before after : State) : State :=
  if after.fault.isNone && decays i before then after.timerDecay else after

/-- `Step` (R90) with `run` as its execute phase. A core whose latch is set makes no transition (R87): the state stays as
it is (log entry 4). -/
def cycle (run : Instr → State → Host.Outcome State Fault Refusal) (s : State) : Host.Outcome State Fault Refusal :=
  match s.fault with
  | some _ => .next s
  | none =>
    match s.fetch with
    | .error f => .next (s.raise f)
    | .ok w =>
      match decodeWord w with
      | none => .next (s.raise (.illegalOpcode w))
      | some i =>
        match run i s with
        | .next t => .next (endOfCycle i s t)
        | .fault f => .fault f
        | .refused r => .refused r

/-- `s` with the bytes `bs` stored from address `a` upward; what would fall outside the memory is not stored. -/
def State.placeBytes (s : State) : Nat → List Byte → State
  | _, [] => s
  | a, b :: bs =>
    (if a < Config.memSize then { s with mem := Memory.write s.mem a b } else s).placeBytes (a + 1) bs

end Sys2Proof.Machine
end

