-- ==== Sys2Proof/Machine/Step.lean ====
section
/-! DEFINITION. One step of the machine, and how the host puts an instruction where the next step fetches it. -/

namespace Sys2Proof.Machine

/-- `Step` (R90): one cycle whose execute phase is `exec`. -/
def step (s : State) : Host.Outcome State Fault Refusal := cycle exec s

/-- `s` with the instruction that spec/opcode_table.json numbers as `w` stored at `pc`, where `step` fetches (log
entry 9). -/
def State.withFetchWord (s : State) (nbits w : Nat) : State := s.placeBytes s.pc.toNat (tableBytes nbits w)

end Sys2Proof.Machine
end

