-- ==== Sys2Proof/Machine/HostInterface.lean ====
section
/-! DEFINITION. The nine host operations (47_host_interface.md): everything the outside can do to the core or observe of
it (R190, R202). Each is one atomic transition (R200). -/

namespace Sys2Proof.Machine

/-- An operation of R190. -/
inductive HostOp where
  /-- `reset` (R191). -/
  | reset
  /-- `load(bytes)` (R192). -/
  | load (image : List Byte)
  /-- `step(rnd)` (R199). -/
  | step (rnd : Byte)
  /-- `set_key(c)`, a key press (R193); a code above 15 is ignored. -/
  | setKey (code : Nat)
  /-- `clear_key(c)`, a key release (R194); a code above 15 is ignored. -/
  | clearKey (code : Nat)
  /-- `read_frame` (R195). -/
  | readFrame
  /-- `clear_draw_flag` (R196). -/
  | clearDrawFlag
  /-- `read_sound_timer` (R197). -/
  | readSoundTimer
  /-- `read_fault` (R198). -/
  | readFault
  deriving DecidableEq, Repr

/-- The result of an operation (R190's table). -/
inductive Reply where
  /-- The operation has no result. -/
  | done
  /-- The 2048 pixels and `draw_flag`. -/
  | frame (pixels : Screen) (dirty : Bool)
  /-- `ST`. -/
  | soundTimer (st : Byte)
  /-- The fault latch. -/
  | fault (latch : Option Fault)
  deriving DecidableEq, Repr

/-- `Step(rnd)` (R90, R92) on the fifteen elements of R10: the draw is an input of the cycle, and the core keeps nothing of
it (R23). -/
def CoreState.step (rnd : Byte) (c : CoreState) : Host.Outcome CoreState Fault Refusal :=
  match Sys2Proof.Machine.step { toCoreState := c, rndIn := [rnd], draws := 0 } with
  | .next t => .next t.toCoreState
  | .fault f => .fault f
  | .refused r => .refused r

/-- `reset` (R191): every element of R24, at any time and whatever the state was. The supply of draws is no part of the
core (log entry 10). -/
def State.hostReset (s : State) : State := { s with toCoreState := CoreState.reset }

/-- `load(bytes)` (R192): the image goes to 0x200 upward, or, if it does not fit, the fault is raised and no byte is
written. -/
def State.hostLoad (s : State) (image : List Byte) : State :=
  if imageFits image then s.placeBytes Config.entry image else s.raise (.memOutOfBounds Config.memSize)

/-- `set_key(c)` (R193). -/
def State.hostSetKey (s : State) (c : Nat) : State :=
  if h : c < Config.nKeys then
    let t := { s with keys := s.keys.set c true }
    if s.waiting then { t with keyValue := BitVec.ofNat 4 c, keyNotify := true } else t
  else s

/-- `clear_key(c)` (R194): a delivered key is not taken back. -/
def State.hostClearKey (s : State) (c : Nat) : State :=
  if h : c < Config.nKeys then { s with keys := s.keys.set c false } else s

/-- `clear_draw_flag` (R196). -/
def State.hostClearDrawFlag (s : State) : State := { s with drawFlag := false }

/-- `step(rnd)` (R199): `Step(rnd)` on the core; the supply of draws is not touched. -/
def State.hostStep (s : State) (rnd : Byte) : Host.Outcome State Fault Refusal :=
  match CoreState.step rnd s.toCoreState with
  | .next c => .next { s with toCoreState := c }
  | .fault f => .fault f
  | .refused r => .refused r

/-- A host operation: the next state and the result (R190). -/
def perform (op : HostOp) (s : State) : Host.Outcome (State × Reply) Fault Refusal :=
  match op with
  | .reset => .next (s.hostReset, .done)
  | .load image => .next (s.hostLoad image, .done)
  | .step rnd =>
    match s.hostStep rnd with
    | .next t => .next (t, .done)
    | .fault f => .fault f
    | .refused r => .refused r
  | .setKey c => .next (s.hostSetKey c, .done)
  | .clearKey c => .next (s.hostClearKey c, .done)
  | .readFrame => .next (s, .frame s.fb s.drawFlag)
  | .clearDrawFlag => .next (s.hostClearDrawFlag, .done)
  | .readSoundTimer => .next (s, .soundTimer s.st)
  | .readFault => .next (s, .fault s.fault)

end Sys2Proof.Machine
end

