-- ==== Sys2Proof/Safety.lean ====
section
/-! DEFINITION. The terms claims are stated in: what an instruction leaves unchanged, which pixels a sprite covers, the
invariants of R25, the histories of the core (R200), and when a run has ended (R91). -/

namespace Sys2Proof.Machine

/-! ### What a transition leaves unchanged -/

/-- The fifteen elements of the core (R10), and `draw`, the model's own supply of draws (log entry 2). -/
inductive Part where
  | mem | regs | idx | pc | stack | sp | dt | st | fb | drawFlag | keys | waiting | keyValue | keyNotify | fault | draw
  deriving DecidableEq, Repr

/-- A part of `t` reads, everywhere, as the same part of `s`. -/
def Part.same (s t : State) : Part → Prop
  | .mem => ∀ a, t.memRead a = s.memRead a
  | .regs => ∀ r, t.reg r = s.reg r
  | .idx => t.idx = s.idx
  | .pc => t.pc = s.pc
  | .stack => ∀ (k : Nat) (h : k < 16), t.stack[k] = s.stack[k]
  | .sp => t.sp = s.sp
  | .dt => t.dt = s.dt
  | .st => t.st = s.st
  | .fb => ∀ px py, t.fb.pixel px py = s.fb.pixel px py
  | .drawFlag => t.drawFlag = s.drawFlag
  | .keys => ∀ k, t.key k = s.key k
  | .waiting => t.waiting = s.waiting
  | .keyValue => t.keyValue = s.keyValue
  | .keyNotify => t.keyNotify = s.keyNotify
  | .fault => t.fault = s.fault
  | .draw => t.rndIn = s.rndIn ∧ t.draws = s.draws

/-- Every part but those listed is unchanged. -/
def ChangesOnly (ps : List Part) (s t : State) : Prop := ∀ p, p ∉ ps → p.same s t

/-- The "writes" column of the access matrix (R26), with `pc` (which every instruction but the sentinel may write) and,
for `CXNN`, the draw used. -/
def partsWritten : Instr → List Part
  | .halt0 => []
  | .cls => [.fb, .drawFlag, .pc]
  | .ret => [.sp, .pc]
  | .jp _ | .jpV0 _ => [.pc]
  | .call _ => [.stack, .sp, .pc]
  | .seImm _ _ | .sneImm _ _ | .seReg _ _ | .sneReg _ _ | .skp _ | .sknp _ => [.pc]
  | .ldImm _ _ | .addImm _ _ | .ldReg _ _ | .orReg _ _ | .andReg _ _ | .xorReg _ _ => [.regs, .pc]
  | .addReg _ _ | .subReg _ _ | .shrReg _ _ | .subnReg _ _ | .shlReg _ _ => [.regs, .pc]
  | .ldIdx _ | .addIdx _ | .ldGlyph _ => [.idx, .pc]
  | .rnd _ _ => [.regs, .draw, .pc]
  | .drw _ _ _ => [.regs, .fb, .drawFlag, .pc]
  | .ldVxDt _ | .loadRegs _ => [.regs, .pc]
  | .ldVxKey _ => [.waiting, .keyNotify, .regs, .pc]
  | .ldDtVx _ => [.dt, .pc]
  | .ldStVx _ => [.st, .pc]
  | .storeBcd _ | .storeRegs _ => [.mem, .pc]

/-- The general registers in the "writes" column of the access matrix (R26). -/
def regWritten (i : Instr) (r : Reg) : Bool :=
  match i with
  | .halt0 | .cls | .ret | .jp _ | .call _ | .jpV0 _ | .ldIdx _ | .addIdx _ | .ldGlyph _ => false
  | .seImm _ _ | .sneImm _ _ | .seReg _ _ | .sneReg _ _ | .skp _ | .sknp _ => false
  | .ldDtVx _ | .ldStVx _ | .storeBcd _ | .storeRegs _ => false
  | .ldImm x _ | .addImm x _ | .ldReg x _ | .orReg x _ | .andReg x _ | .xorReg x _ => r == x
  | .rnd x _ | .ldVxDt x | .ldVxKey x => r == x
  | .addReg x _ | .subReg x _ | .shrReg x _ | .subnReg x _ | .shlReg x _ => r == x || r == .vf
  | .drw _ _ _ => r == .vf
  | .loadRegs x => decide (r.val ≤ x.val)

/-- The whole effect of an instruction that writes one register and goes on to the next word. -/
def LoadsRegister (s t : State) (x : Reg) (b : Byte) : Prop :=
  t.reg x = b ∧ (∀ r, r ≠ x → t.reg r = s.reg r) ∧ t.pc = s.pc + 2 ∧ ChangesOnly [.regs, .pc] s t

/-- The whole effect of an instruction that writes a result to VX, a flag to VF, and goes on to the next word, the flag
being written last: with X = 15 it is the flag that stays (R143). -/
def LoadsThenFlags (s t : State) (x : Reg) (result flag : Nat) : Prop :=
  (t.reg .vf).toNat = flag ∧ (x ≠ .vf → (t.reg x).toNat = result) ∧
    (∀ r, r ≠ x → r ≠ .vf → t.reg r = s.reg r) ∧ t.pc = s.pc + 2 ∧ ChangesOnly [.regs, .pc] s t

/-- The same, the result being written last: with X = 15 it is the result that stays (R143). -/
def FlagsThenLoads (s t : State) (x : Reg) (result flag : Nat) : Prop :=
  (t.reg x).toNat = result ∧ (x ≠ .vf → (t.reg .vf).toNat = flag) ∧
    (∀ r, r ≠ x → r ≠ .vf → t.reg r = s.reg r) ∧ t.pc = s.pc + 2 ∧ ChangesOnly [.regs, .pc] s t

/-- The whole effect of a skip on the condition `c` (R118). -/
def SkipsIf (c : Prop) (s t : State) : Prop :=
  (c → t.pc = s.pc + 4) ∧ (¬c → t.pc = s.pc + 2) ∧ ChangesOnly [.pc] s t

/-- The word `w` is the instruction `i`. -/
def EncodedAs (i : Instr) (w : Nat) : Prop := decodeWord (BitVec.ofNat 16 w) = some i

/-- Where `pc` can be after a cycle that executed `i` and raised no fault: the classes of R84. -/
def pcChoices (i : Instr) (s : State) : List Word :=
  match i with
  | .halt0 => [s.pc]
  | .jp nnn | .call nnn => [BitVec.ofNat 16 nnn.toNat]
  | .jpV0 nnn => [BitVec.ofNat 16 (nnn.toNat + (s.reg 0).toNat)]
  | .ret => if h : 0 < s.sp.val then [s.stack[s.sp.val - 1]'(by omega)] else []
  | .seImm x nn => [if s.reg x = nn then s.pc + 4 else s.pc + 2]
  | .sneImm x nn => [if s.reg x = nn then s.pc + 2 else s.pc + 4]
  | .seReg x y => [if s.reg x = s.reg y then s.pc + 4 else s.pc + 2]
  | .sneReg x y => [if s.reg x = s.reg y then s.pc + 2 else s.pc + 4]
  | .skp x => if h : (s.reg x).toNat < 16 then [if s.key ⟨_, h⟩ = true then s.pc + 4 else s.pc + 2] else []
  | .sknp x => if h : (s.reg x).toNat < 16 then [if s.key ⟨_, h⟩ = true then s.pc + 2 else s.pc + 4] else []
  | .ldVxKey _ => [if s.waiting = true ∧ s.keyNotify = true then s.pc + 2 else s.pc]
  | .cls | .ldImm _ _ | .addImm _ _ | .ldReg _ _ | .orReg _ _ | .andReg _ _ | .xorReg _ _ => [s.pc + 2]
  | .addReg _ _ | .subReg _ _ | .shrReg _ _ | .subnReg _ _ | .shlReg _ _ | .rnd _ _ | .drw _ _ _ => [s.pc + 2]
  | .ldIdx _ | .addIdx _ | .ldGlyph _ | .ldVxDt _ | .ldDtVx _ | .ldStVx _ => [s.pc + 2]
  | .storeBcd _ | .storeRegs _ | .loadRegs _ => [s.pc + 2]

/-- The whole effect of raising `f` on a core whose latch is empty: the latch, and nothing else (R217). -/
def Raises (o : Host.Outcome State Fault Refusal) (s : State) (f : Fault) : Prop :=
  o = .next { s with fault := some f }

/-! ### Sprites -/

/-- The sprite of `N` rows at `I`, drawn at column `x[X]` and row `x[Y]`, has a set bit on the pixel `(px, py)` (R101,
R102). -/
def Covers (s : State) (x y : Reg) (n : BitVec 4) (px : Fin 64) (py : Fin 32) : Prop :=
  ∃ r c : Nat, r < n.toNat ∧ c < 8 ∧ (Memory.read s.mem (s.idx.toNat + r)).getLsbD (7 - c) = true ∧
    px.val = ((s.reg x).toNat + c) % 64 ∧ py.val = ((s.reg y).toNat + r) % 32

/-! ### The cells an instruction writes: the access matrix, cell by cell (R26) -/

/-- The bytes in the "writes" column: `mem[I..I+2]` for `FX33`, `mem[I..I+X]` for `FX55`, none for the others. The base is
the one the meanings use. -/
def byteWritten (i : Instr) (s : State) (a : Nat) : Prop :=
  match i with
  | .storeBcd _ => s.base ≤ a ∧ a ≤ s.base + 2
  | .storeRegs x => s.base ≤ a ∧ a < s.base + regCount x
  | .halt0 | .cls | .ret | .jp _ | .call _ | .jpV0 _ | .ldIdx _ | .addIdx _ | .ldGlyph _ => False
  | .seImm _ _ | .sneImm _ _ | .seReg _ _ | .sneReg _ _ | .skp _ | .sknp _ => False
  | .ldImm _ _ | .addImm _ _ | .ldReg _ _ | .orReg _ _ | .andReg _ _ | .xorReg _ _ => False
  | .addReg _ _ | .subReg _ _ | .shrReg _ _ | .subnReg _ _ | .shlReg _ _ | .rnd _ _ | .drw _ _ _ => False
  | .ldVxDt _ | .ldVxKey _ | .ldDtVx _ | .ldStVx _ | .loadRegs _ => False

/-- The stack cells in the "writes" column: `stack[SP]` for `2NNN`, none for the others. -/
def entryWritten (i : Instr) (s : State) (k : Nat) : Prop :=
  match i with
  | .call _ => k = s.sp.val
  | .halt0 | .cls | .ret | .jp _ | .jpV0 _ | .ldIdx _ | .addIdx _ | .ldGlyph _ => False
  | .seImm _ _ | .sneImm _ _ | .seReg _ _ | .sneReg _ _ | .skp _ | .sknp _ => False
  | .ldImm _ _ | .addImm _ _ | .ldReg _ _ | .orReg _ _ | .andReg _ _ | .xorReg _ _ => False
  | .addReg _ _ | .subReg _ _ | .shrReg _ _ | .subnReg _ _ | .shlReg _ _ | .rnd _ _ | .drw _ _ _ => False
  | .ldVxDt _ | .ldVxKey _ | .ldDtVx _ | .ldStVx _ | .storeBcd _ | .storeRegs _ | .loadRegs _ => False

/-- The pixels in the "writes" column: all for `00E0`, those under the sprite for `DXYN`, none for the others. -/
def pixelWritten (i : Instr) (s : State) (px : Fin 64) (py : Fin 32) : Prop :=
  match i with
  | .cls => True
  | .drw x y n => Covers s x y n px py
  | .halt0 | .ret | .jp _ | .call _ | .jpV0 _ | .ldIdx _ | .addIdx _ | .ldGlyph _ => False
  | .seImm _ _ | .sneImm _ _ | .seReg _ _ | .sneReg _ _ | .skp _ | .sknp _ => False
  | .ldImm _ _ | .addImm _ _ | .ldReg _ _ | .orReg _ _ | .andReg _ _ | .xorReg _ _ => False
  | .addReg _ _ | .subReg _ _ | .shrReg _ _ | .subnReg _ _ | .shlReg _ _ | .rnd _ _ => False
  | .ldVxDt _ | .ldVxKey _ | .ldDtVx _ | .ldStVx _ | .storeBcd _ | .storeRegs _ | .loadRegs _ => False

/-! ### Invariants (R25) -/

/-- The word at `pc` (R46), whatever `pc` is. -/
def State.wordAtPc (s : State) : Word :=
  wordOfBytes (Memory.read s.mem s.pc.toNat) (Memory.read s.mem (s.pc.toNat + 1))

/-- R25 (c) and (e), and the canonical form of memory; (a), (b) and (d) hold by the types of `sp`, `fb` and
`keyValue`. -/
structure Inv (s : State) : Prop where
  /-- Memory is in its canonical form. -/
  memWf : Memory.wf s.mem = true
  /-- (c) `key_notify = 1` implies `waiting = 1`. -/
  notifyWaits : s.keyNotify = true → s.waiting = true
  /-- (e) `pc <= 0x10FE`. -/
  pcBound : s.pc.toNat ≤ 0x10FE
  /-- (e) Every stack entry in use is at most 0x1000. -/
  stackBound : ∀ (k : Nat) (h : k < s.sp.val), (s.stack[k]'(by omega)).toNat ≤ 0x1000

/-- R25 (f): a waiting core has an `FX0A` at `pc`. -/
def WaitsAtKeyInstruction (s : State) : Prop :=
  s.waiting = true → s.pc.toNat + 1 < 0x1000 ∧ ∃ x, decodeWord s.wordAtPc = some (.ldVxKey x)

/-! ### Histories (R200, R203) -/

/-- Host duty H4 (R203): no `load` while `waiting = 1`. -/
def KeepsH4 (op : HostOp) (s : State) : Prop := ∀ image, op = .load image → s.waiting = false

/-- The states of the histories that begin with a reset (duty H1) and in which every host operation keeps `duty`. -/
inductive Reachable (duty : HostOp → State → Prop) : State → Prop where
  /-- Right after a reset. -/
  | reset : Reachable duty State.reset
  /-- After one more operation. -/
  | after {s t : State} {op : HostOp} {reply : Reply} :
      Reachable duty s → duty op s → perform op s = .next (t, reply) → Reachable duty t

/-- The end of a run (R91): not faulted, not waiting, the sentinel at `pc`. -/
def Final (s : State) : Prop :=
  s.fault = none ∧ s.waiting = false ∧ s.pc.toNat ≤ 0xFFE ∧
    s.memRead s.pc.toNat = .ok 0 ∧ s.memRead (s.pc.toNat + 1) = .ok 0

end Sys2Proof.Machine
end

