-- ==== Sys2Proof/Certificates/Slice0/Obligations.lean ====
section
/-! DEFINITION. The statements for the provers, each a `def Obligations.<Name> : Prop`. They come from the numbered rules
of spec/, file by file. `exec` is the execute phase of a cycle, `step` the whole cycle, `perform` a host operation. -/

open Sys2Proof Sys2Proof.Machine

/-! ### Encoding (30_encoding.md) -/

/-- R60, R61, R65. Decoding the bytes of an instruction gives it back, with every operand at every value, and leaves the
bytes after it alone. -/
def Obligations.DecodeOfEncodeGivesTheInstructionBack : Prop :=
  ∀ (i : Instr) (rest : List Byte),
    decodeBytes (encodeBytes i ++ rest) = some (i, rest) ∧ decodeWord (encode i) = some i

/-- R65, R68. Each legal word has one meaning: the word is the one its instruction encodes to. -/
def Obligations.EncodeOfDecodeGivesTheWordBack : Prop :=
  ∀ (w : Word) (i : Instr), decodeWord w = some i → encode i = w

/-- R64. A word decodes exactly if it matches a row of the opcode map, to an instruction of a row it matches, and it
matches no other row: the rows are disjoint. -/
def Obligations.DecoderFollowsTheOpcodeMap : Prop :=
  (∀ w : Word, (∃ i, decodeWord w = some i) ↔ ∃ r ∈ opcodeMap, w &&& r.mask = r.value) ∧
  (∀ (w : Word) (i : Instr), decodeWord w = some i → i.row ∈ opcodeMap ∧ w &&& i.row.mask = i.row.value) ∧
  (∀ (w : Word) (r r' : OpcodeRow), r ∈ opcodeMap → r' ∈ opcodeMap → w &&& r.mask = r.value →
    w &&& r'.mask = r'.value → r = r')

/-- R67's table: the illegal words, family by family, and no others. -/
def Obligations.IllegalWordsAreExactlyTheTableOfR67 : Prop :=
  ∀ w : Word, decodeWord w = none ↔
    (w.toNat / 0x1000 = 0x0 ∧ w ≠ 0x0000 ∧ w ≠ 0x00E0 ∧ w ≠ 0x00EE) ∨
    (w.toNat / 0x1000 = 0x5 ∧ w.toNat % 0x10 ≠ 0) ∨
    (w.toNat / 0x1000 = 0x8 ∧ w.toNat % 0x10 ∈ [8, 9, 0xA, 0xB, 0xC, 0xD, 0xF]) ∨
    (w.toNat / 0x1000 = 0x9 ∧ w.toNat % 0x10 ≠ 0) ∨
    (w.toNat / 0x1000 = 0xE ∧ w.toNat % 0x100 ∉ [0x9E, 0xA1]) ∨
    (w.toNat / 0x1000 = 0xF ∧ w.toNat % 0x100 ∉ [0x07, 0x0A, 0x15, 0x18, 0x1E, 0x29, 0x33, 0x55, 0x65])

/-- R65, sanity: words written out from the patterns decode to their instructions. -/
def Obligations.SampleWordsDecode : Prop :=
  decodeWord 0xD12F = some (.drw 1 2 15) ∧ decodeWord 0x8AB6 = some (.shrReg 10 11) ∧
  decodeWord 0xF355 = some (.storeRegs 3) ∧ decodeWord 0xBFED = some (.jpV0 0xFED) ∧
  decodeWord 0x00EE = some .ret ∧ decodeWord 0x0000 = some .halt0 ∧ decodeWord 0x812D = none

/-! ### The cycle (40_sequencer.md, 60_exceptions.md) -/

/-- R90, with R85 and R86: if the core is not faulted, the two bytes at `pc` are in bounds and decode, big-endian, to
`i`, then the step is the execute phase of `i`, followed by the decay of both timers unless a fault was raised, `i` is the
sentinel, or `i` is an `FX0A` and the core was waiting. `exec` always answers a next state
(`ExecuteAlwaysAnswersANextState`). -/
def Obligations.StepRunsTheDecodedInstruction : Prop :=
  ∀ (s t : State) (i : Instr), s.fault = none → s.pc.toNat + 1 < 0x1000 → decodeWord s.wordAtPc = some i →
    exec i s = .next t →
    ((t.fault ≠ none ∨ i = .halt0 ∨ ((∃ x, i = .ldVxKey x) ∧ s.waiting = true)) → step s = .next t) ∧
    (t.fault = none → i ≠ .halt0 → ¬((∃ x, i = .ldVxKey x) ∧ s.waiting = true) →
      step s = .next { t with
        dt := if t.dt = 0 then 0 else t.dt - 1
        st := if t.st = 0 then 0 else t.st - 1 })

/-- The model's choice, log entries 3 and 4: raising a fault, and a step on a faulted core, which R6 counts as outcomes of
their own, are next states here, as R217 and R87 say what they leave. So the execute phase of every instruction, and every
step, has a next state as its outcome, on every state. -/
def Obligations.ExecuteAlwaysAnswersANextState : Prop :=
  (∀ (i : Instr) (s : State), ∃ t, exec i s = .next t) ∧ ∀ s : State, ∃ t, step s = .next t

/-- R87: a step on a core whose latch is set changes nothing. -/
def Obligations.FaultedCoreDoesNothing : Prop :=
  ∀ (s : State) (f : Fault), s.fault = some f → step s = .next s

/-- R81, R46: the word fetched is the byte at `pc`, as its high byte, and the byte at `pc + 1`, whether `pc` is even or
odd. A fetch at or above 0x1000 raises `MemOutOfBounds(pc)`, one at 0x0FFF raises `MemOutOfBounds(0x1000)`, and nothing
else changes. It is so while `waiting = 1` too. -/
def Obligations.FetchIsBigEndianAndBoundsChecked : Prop :=
  ∀ s : State,
    (s.pc.toNat + 1 < 0x1000 → ∃ (hi lo : Byte) (w : Word), s.memRead s.pc.toNat = .ok hi ∧
      s.memRead (s.pc.toNat + 1) = .ok lo ∧ s.fetch = .ok w ∧ w.toNat = 256 * hi.toNat + lo.toNat) ∧
    (s.fault = none → 0x1000 ≤ s.pc.toNat → Raises (step s) s (.memOutOfBounds s.pc.toNat)) ∧
    (s.fault = none → s.pc.toNat = 0x0FFF → Raises (step s) s (.memOutOfBounds 0x1000))

/-- R82, R91: the all-zero word at `pc` changes nothing, so a final state is a fixed point; it is so whatever `waiting`
and the timers are. -/
def Obligations.SentinelChangesNothing : Prop :=
  EncodedAs .halt0 0x0000 ∧ (∀ s : State, exec .halt0 s = .next s) ∧
  (∀ s : State, s.memRead s.pc.toNat = .ok 0 → s.memRead (s.pc.toNat + 1) = .ok 0 → step s = .next s) ∧
  (∀ s : State, Final s → step s = .next s)

/-- R214: a fetched word that matches no row of the opcode map raises `IllegalOpcode(w)`, and nothing else changes. -/
def Obligations.IllegalWordRaises : Prop :=
  ∀ s : State, s.fault = none → s.pc.toNat + 1 < 0x1000 → (∀ r ∈ opcodeMap, s.wordAtPc &&& r.mask ≠ r.value) →
    Raises (step s) s (.illegalOpcode s.wordAtPc)

/-- R88, R217: a step that raises a fault changes the latch and nothing else. -/
def Obligations.RaisingStepChangesOnlyTheLatch : Prop :=
  ∀ (s t : State) (f : Fault), s.fault = none → step s = .next t → t.fault = some f → t = { s with fault := some f }

/-- R216, R210's column "raised by": which fault a step can raise is settled by the word it fetches. A fetch fault comes
first, then an illegal word, then the one kind of fault of the instruction, with the info R210 records. -/
def Obligations.EachFaultHasItsCause : Prop :=
  ∀ (s t : State) (f : Fault), s.fault = none → step s = .next t → t.fault = some f →
    (0x0FFF ≤ s.pc.toNat ∧ f = .memOutOfBounds (max s.pc.toNat 0x1000)) ∨
    (s.pc.toNat + 1 < 0x1000 ∧ decodeWord s.wordAtPc = none ∧ f = .illegalOpcode s.wordAtPc) ∨
    (s.pc.toNat + 1 < 0x1000 ∧ ∃ i, decodeWord s.wordAtPc = some i ∧
      (((∃ nnn, i = .call nnn) ∧ s.sp.val = 16 ∧ f = .stackOverflow s.wordAtPc) ∨
       (i = .ret ∧ s.sp.val = 0 ∧ f = .stackUnderflow 0x00EE) ∨
       (∃ x, (i = .skp x ∨ i = .sknp x) ∧ 15 < (s.reg x).toNat ∧ f = .badKeyIndex (s.reg x)) ∨
       (∃ x y n, i = .drw x y n ∧ 1 ≤ n.toNat ∧ 0x1000 ≤ s.idx.toNat + n.toNat - 1 ∧
         f = .memOutOfBounds (max s.idx.toNat 0x1000)) ∨
       (∃ x, i = .storeBcd x ∧ 0x1000 ≤ s.idx.toNat + 2 ∧ f = .memOutOfBounds (max s.idx.toNat 0x1000)) ∨
       (∃ x, (i = .storeRegs x ∨ i = .loadRegs x) ∧ 0x1000 ≤ s.idx.toNat + x.val ∧
         f = .memOutOfBounds (max s.idx.toNat 0x1000))))

/-- R85, R86: what a step does to the timers. A step that raises a fault, the sentinel, and an `FX0A` that was already
waiting leave them; every other instruction lowers each by one, not below 0, from what its execute phase left, which is
`VX` for `FX15` and `FX18`. -/
def Obligations.TimersCountInstructions : Prop :=
  ∀ (s t : State) (i : Instr), s.fault = none → s.pc.toNat + 1 < 0x1000 → decodeWord s.wordAtPc = some i →
    step s = .next t →
    (t.fault ≠ none ∨ i = .halt0 ∨ ((∃ x, i = .ldVxKey x) ∧ s.waiting = true) → t.dt = s.dt ∧ t.st = s.st) ∧
    (t.fault = none → i ≠ .halt0 → ¬((∃ x, i = .ldVxKey x) ∧ s.waiting = true) →
      (∀ x, i = .ldDtVx x → t.dt.toNat = (s.reg x).toNat - 1) ∧
      ((∀ x, i ≠ .ldDtVx x) → t.dt.toNat = s.dt.toNat - 1) ∧
      (∀ x, i = .ldStVx x → t.st.toNat = (s.reg x).toNat - 1) ∧
      ((∀ x, i ≠ .ldStVx x) → t.st.toNat = s.st.toNat - 1))

/-- R84: where `pc` is after a step that executed `i`, class by class; a step that raises a fault leaves it. -/
def Obligations.PcFollowsItsClass : Prop :=
  ∀ (s t : State) (i : Instr), s.fault = none → s.pc.toNat + 1 < 0x1000 → decodeWord s.wordAtPc = some i →
    step s = .next t → (t.fault ≠ none → t.pc = s.pc) ∧ (t.fault = none → t.pc ∈ pcChoices i s)

/-- R94, R92, R23: what a step does to the core is `Step(rnd)` on the fifteen elements of R10, `rnd` being the draw of the
cycle; where the word at `pc` is no `CXNN` the draw plays no part. No host operation looks at the model's own supply of
draws (log entry 2) or touches it. -/
def Obligations.StepDependsOnTheStateAndTheDrawOnly : Prop :=
  (∀ s t : State, step s = .next t → CoreState.step s.draw s.toCoreState = .next t.toCoreState) ∧
  (∀ (s : State) (rnd rnd' : Byte), (∀ x nn, decodeWord s.wordAtPc ≠ some (.rnd x nn)) →
    CoreState.step rnd s.toCoreState = CoreState.step rnd' s.toCoreState) ∧
  ∀ (op : HostOp) (s t : State) (r : Reply) (queue : List Byte) (count : Nat), perform op s = .next (t, r) →
    perform op { s with rndIn := queue, draws := count } = .next ({ t with rndIn := queue, draws := count }, r)

/-! ### The access matrix (10_state.md R26) and what no instruction does -/

/-- R26, R11, R12: the execute phase of an instruction that raises no fault writes only the parts, the general registers,
the bytes of memory, the stack cells and the pixels of its row of the access matrix: `FX33` the bytes `I` to `I + 2`,
`FX55` the bytes `I` to `I + X`, `2NNN` the cell `stack[SP]`, `DXYN` the pixels under the sprite. -/
def Obligations.WritesFollowTheAccessMatrix : Prop :=
  ∀ (i : Instr) (s t : State), exec i s = .next t → t.fault = s.fault →
    ChangesOnly (partsWritten i) s t ∧ (∀ r : Reg, regWritten i r = false → t.reg r = s.reg r) ∧
    (∀ a, ¬byteWritten i s a → t.memRead a = s.memRead a) ∧
    (∀ (k : Nat) (h : k < 16), ¬entryWritten i s k → t.stack[k] = s.stack[k]) ∧
    ∀ px py, ¬pixelWritten i s px py → t.fb.pixel px py = s.fb.pixel px py

/-- R19, R219: the key state is read by `EX9E` and `EXA1` only: any other instruction does the same whatever keys are
held, and no instruction writes the key state. -/
def Obligations.OnlyKeyTestsSeeTheKeys : Prop :=
  (∀ (i : Instr) (s : State) (ks : Vector Bool 16) (t : State), (∀ x, i ≠ .skp x ∧ i ≠ .sknp x) →
    exec i s = .next t → exec i { s with keys := ks } = .next { t with keys := ks }) ∧
  ∀ (s t : State), step s = .next t → t.keys = s.keys ∧ t.keyValue = s.keyValue

/-- R18, R16: no instruction reads `draw_flag` or `ST`: a step from a state with other values of the two reaches a state
that differs in the two only. -/
def Obligations.OutputsDoNotInfluenceTheCore : Prop :=
  ∀ (s t : State) (flag : Bool) (st : Byte), step s = .next t →
    ∃ t', step { s with drawFlag := flag, st := st } = .next t' ∧ { t' with drawFlag := t.drawFlag, st := t.st } = t

/-! ### Memory (20_memory.md) -/

/-- R41, R42, R50: a byte written reads back, every other byte reads as before, and nothing else changes; an address at or
above 0x1000 faults in both directions, with no wrap. -/
def Obligations.ReadAfterWrite : Prop :=
  ∀ (s : State) (a : Nat) (v : Byte),
    (a < 0x1000 → ∃ t, s.memWrite a v = .ok t ∧ t.memRead a = .ok v ∧ (∀ b, b ≠ a → t.memRead b = s.memRead b) ∧
      ChangesOnly [.mem] s t) ∧
    (0x1000 ≤ a → s.memWrite a v = .error (.memOutOfBounds a) ∧ s.memRead a = .error (.memOutOfBounds a))

/-- R54: a store by `FX55` over the next two words' bytes is what the next fetch reads: self-modifying code works. -/
def Obligations.StoreIsSeenByTheNextFetch : Prop :=
  ∀ (s t : State) (x : Reg), s.fault = none → 1 ≤ x.val → s.pc.toNat ≤ 0xFFE → s.idx.toNat = s.pc.toNat + 2 →
    s.idx.toNat + x.val < 0x1000 → decodeWord s.wordAtPc = some (.storeRegs x) → step s = .next t →
    t.fetch = .ok (wordOfBytes (s.reg 0) (s.reg 1))

/-! ### Display (41_display.md) -/

/-- R100: `00E0` clears every pixel, sets `draw_flag`, goes on; nothing else changes. -/
def Obligations.ClsClearsTheScreen : Prop :=
  EncodedAs .cls 0x00E0 ∧
  ∀ s : State, ∃ t, exec .cls s = .next t ∧ (∀ px py, t.fb.pixel px py = false) ∧ t.drawFlag = true ∧
    t.pc = s.pc + 2 ∧ ChangesOnly [.fb, .drawFlag, .pc] s t

/-- R101, R102, R104: `DXYN` whose rows are in memory flips exactly the pixels under a set sprite bit, each pixel
wrapping on its own; VF is 1 if one of them was set and 0 if none was; `draw_flag` is set; no other register changes. With
`N = 0` no address is looked at. The coordinates are the registers' values before VF is written. With a row outside
memory it raises with the first out-of-bounds address and draws nothing. -/
def Obligations.DrwFlipsTheCoveredPixels : Prop :=
  ∀ (s : State) (x y : Reg) (n : BitVec 4),
    EncodedAs (.drw x y n) (0xD000 + 0x100 * x.val + 0x10 * y.val + n.toNat) ∧
    (n.toNat = 0 ∨ s.idx.toNat + n.toNat - 1 < 0x1000 → ∃ t, exec (.drw x y n) s = .next t ∧
      (∀ px py, Covers s x y n px py → t.fb.pixel px py = !s.fb.pixel px py) ∧
      (∀ px py, ¬Covers s x y n px py → t.fb.pixel px py = s.fb.pixel px py) ∧
      ((∃ px py, Covers s x y n px py ∧ s.fb.pixel px py = true) → t.reg .vf = 1) ∧
      ((¬∃ px py, Covers s x y n px py ∧ s.fb.pixel px py = true) → t.reg .vf = 0) ∧
      t.drawFlag = true ∧ t.pc = s.pc + 2 ∧ (∀ r, r ≠ .vf → t.reg r = s.reg r) ∧
      ChangesOnly [.regs, .fb, .drawFlag, .pc] s t) ∧
    (s.fault = none → 1 ≤ n.toNat → 0x1000 ≤ s.idx.toNat + n.toNat - 1 →
      Raises (exec (.drw x y n) s) s (.memOutOfBounds (max s.idx.toNat 0x1000)))

/-- R101 (g): drawing a sprite again at the same place, from a state whose screen is what the first draw left, restores
the screen, and VF is then 1 exactly if a set sprite bit fell on a pixel that was 0 at first. -/
def Obligations.DrawingTwiceRestoresTheScreen : Prop :=
  ∀ (s t u w : State) (x y : Reg) (n : BitVec 4), n.toNat = 0 ∨ s.idx.toNat + n.toNat - 1 < 0x1000 →
    exec (.drw x y n) s = .next t → u.fb = t.fb → u.mem = s.mem → u.idx = s.idx → u.reg x = s.reg x →
    u.reg y = s.reg y → exec (.drw x y n) u = .next w →
    (∀ px py, w.fb.pixel px py = s.fb.pixel px py) ∧
    (w.reg .vf = 1 ↔ ∃ px py, Covers s x y n px py ∧ s.fb.pixel px py = false)

/-! ### Control transfer (42_control_flow.md) -/

/-- R110: `00EE` takes the top entry of the stack as `pc`, without adding to it; the cell keeps its content. With no
entry it raises `StackUnderflow`. -/
def Obligations.RetPopsThePc : Prop :=
  EncodedAs .ret 0x00EE ∧
  ∀ s : State,
    (∀ h : 0 < s.sp.val, ∃ t, exec .ret s = .next t ∧ t.pc = s.stack[s.sp.val - 1]'(by omega) ∧
      t.sp.val = s.sp.val - 1 ∧ ChangesOnly [.pc, .sp] s t) ∧
    (s.fault = none → s.sp.val = 0 → Raises (exec .ret s) s (.stackUnderflow 0x00EE))

/-- R111, R117: `1NNN` jumps to `NNN`, `BNNN` to `NNN + V0`, not reduced modulo 0x1000; nothing else changes. -/
def Obligations.JumpsSetThePc : Prop :=
  ∀ (s : State) (nnn : BitVec 12),
    EncodedAs (.jp nnn) (0x1000 + nnn.toNat) ∧ EncodedAs (.jpV0 nnn) (0xB000 + nnn.toNat) ∧
    (∃ t, exec (.jp nnn) s = .next t ∧ t.pc.toNat = nnn.toNat ∧ ChangesOnly [.pc] s t) ∧
    (∃ t, exec (.jpV0 nnn) s = .next t ∧ t.pc.toNat = nnn.toNat + (s.reg 0).toNat ∧ ChangesOnly [.pc] s t)

/-- R112: `2NNN` pushes `pc + 2` and jumps; with sixteen entries it raises `StackOverflow` with its own word. -/
def Obligations.CallPushesTheReturnAddress : Prop :=
  ∀ (s : State) (nnn : BitVec 12),
    EncodedAs (.call nnn) (0x2000 + nnn.toNat) ∧
    (∀ h : s.sp.val < 16, ∃ t, exec (.call nnn) s = .next t ∧ t.stack[s.sp.val] = s.pc + 2 ∧
      (∀ (k : Nat) (hk : k < 16), k ≠ s.sp.val → t.stack[k] = s.stack[k]) ∧ t.sp.val = s.sp.val + 1 ∧
      t.pc.toNat = nnn.toNat ∧ ChangesOnly [.stack, .sp, .pc] s t) ∧
    (s.fault = none → s.sp.val = 16 → Raises (exec (.call nnn) s) s (.stackOverflow (0x2000 + nnn.zeroExtend 16)))

/-- R119, R112: a call, then whatever leaves the stack as the call left it, then a return: `pc` is the address after the
call, and `SP` and every entry in use are as before the call. -/
def Obligations.CallThenReturnRoundTrips : Prop :=
  ∀ (s t u w : State) (nnn : BitVec 12), s.sp.val < 16 → exec (.call nnn) s = .next t → u.stack = t.stack →
    u.sp = t.sp → exec .ret u = .next w →
    w.pc = s.pc + 2 ∧ w.sp = s.sp ∧ ∀ (k : Nat) (h : k < s.sp.val), w.stack[k]'(by omega) = s.stack[k]'(by omega)

/-- R113 to R116, R118: the four skips on registers. -/
def Obligations.SkipsOnRegisters : Prop :=
  ∀ (s : State) (x y : Reg) (nn : Byte),
    EncodedAs (.seImm x nn) (0x3000 + 0x100 * x.val + nn.toNat) ∧
    EncodedAs (.sneImm x nn) (0x4000 + 0x100 * x.val + nn.toNat) ∧
    EncodedAs (.seReg x y) (0x5000 + 0x100 * x.val + 0x10 * y.val) ∧
    EncodedAs (.sneReg x y) (0x9000 + 0x100 * x.val + 0x10 * y.val) ∧
    (∃ t, exec (.seImm x nn) s = .next t ∧ SkipsIf (s.reg x = nn) s t) ∧
    (∃ t, exec (.sneImm x nn) s = .next t ∧ SkipsIf (s.reg x ≠ nn) s t) ∧
    (∃ t, exec (.seReg x y) s = .next t ∧ SkipsIf (s.reg x = s.reg y) s t) ∧
    (∃ t, exec (.sneReg x y) s = .next t ∧ SkipsIf (s.reg x ≠ s.reg y) s t)

/-! ### Registers and ALU (43_alu.md) -/

/-- R130, R131: `6XNN` and `7XNN`; the sum wraps modulo 256 and no flag is written, VF being an ordinary destination. -/
def Obligations.ImmediateLoadAndAdd : Prop :=
  ∀ (s : State) (x : Reg) (nn : Byte),
    EncodedAs (.ldImm x nn) (0x6000 + 0x100 * x.val + nn.toNat) ∧
    EncodedAs (.addImm x nn) (0x7000 + 0x100 * x.val + nn.toNat) ∧
    (∃ t, exec (.ldImm x nn) s = .next t ∧ LoadsRegister s t x nn) ∧
    (∃ t, exec (.addImm x nn) s = .next t ∧
      LoadsRegister s t x (BitVec.ofNat 8 (((s.reg x).toNat + nn.toNat) % 256)))

/-- R132 to R135: copy, OR, AND and XOR, bit by bit; VF is not written unless X = 15. -/
def Obligations.CopyAndLogic : Prop :=
  ∀ (s : State) (x y : Reg),
    EncodedAs (.ldReg x y) (0x8000 + 0x100 * x.val + 0x10 * y.val) ∧
    EncodedAs (.orReg x y) (0x8001 + 0x100 * x.val + 0x10 * y.val) ∧
    EncodedAs (.andReg x y) (0x8002 + 0x100 * x.val + 0x10 * y.val) ∧
    EncodedAs (.xorReg x y) (0x8003 + 0x100 * x.val + 0x10 * y.val) ∧
    (∃ t, exec (.ldReg x y) s = .next t ∧ LoadsRegister s t x (s.reg y)) ∧
    (∃ t b, exec (.orReg x y) s = .next t ∧ LoadsRegister s t x b ∧
      ∀ k, b.getLsbD k = ((s.reg x).getLsbD k || (s.reg y).getLsbD k)) ∧
    (∃ t b, exec (.andReg x y) s = .next t ∧ LoadsRegister s t x b ∧
      ∀ k, b.getLsbD k = ((s.reg x).getLsbD k && (s.reg y).getLsbD k)) ∧
    (∃ t b, exec (.xorReg x y) s = .next t ∧ LoadsRegister s t x b ∧
      ∀ k, b.getLsbD k = ((s.reg x).getLsbD k ^^ (s.reg y).getLsbD k))

/-- R136, R142: `8XY4`. -/
def Obligations.AddWritesSumThenCarry : Prop :=
  ∀ (s : State) (x y : Reg),
    EncodedAs (.addReg x y) (0x8004 + 0x100 * x.val + 0x10 * y.val) ∧ ∃ t, exec (.addReg x y) s = .next t ∧
    LoadsThenFlags s t x (((s.reg x).toNat + (s.reg y).toNat) % 256)
      (if (s.reg x).toNat + (s.reg y).toNat > 255 then 1 else 0)

/-- R137, R139, R142: `8XY5` and `8XY7`; the flag is 1 when there is no borrow, equality included. -/
def Obligations.SubtractionsWriteDifferenceThenNoBorrow : Prop :=
  ∀ (s : State) (x y : Reg),
    EncodedAs (.subReg x y) (0x8005 + 0x100 * x.val + 0x10 * y.val) ∧
    EncodedAs (.subnReg x y) (0x8007 + 0x100 * x.val + 0x10 * y.val) ∧
    (∃ t, exec (.subReg x y) s = .next t ∧
      LoadsThenFlags s t x (((s.reg x).toNat + 256 - (s.reg y).toNat) % 256)
        (if (s.reg x).toNat ≥ (s.reg y).toNat then 1 else 0)) ∧
    (∃ t, exec (.subnReg x y) s = .next t ∧
      LoadsThenFlags s t x (((s.reg y).toNat + 256 - (s.reg x).toNat) % 256)
        (if (s.reg y).toNat ≥ (s.reg x).toNat then 1 else 0))

/-- R138, R140, R143: `8XY6` and `8XYE` shift VY, not VX, by one; the bit shifted out goes to VF before the result is
written. -/
def Obligations.ShiftsWriteLostBitThenResult : Prop :=
  ∀ (s : State) (x y : Reg),
    EncodedAs (.shrReg x y) (0x8006 + 0x100 * x.val + 0x10 * y.val) ∧
    EncodedAs (.shlReg x y) (0x800E + 0x100 * x.val + 0x10 * y.val) ∧
    (∃ t, exec (.shrReg x y) s = .next t ∧ FlagsThenLoads s t x ((s.reg y).toNat / 2) ((s.reg y).toNat % 2)) ∧
    (∃ t, exec (.shlReg x y) s = .next t ∧
      FlagsThenLoads s t x ((s.reg y).toNat * 2 % 256) ((s.reg y).toNat / 128))

/-- R141: `CXNN` writes `NN AND rnd`. Where the draw `rnd` comes from, and what becomes of the supply, is the model's
choice, log entry 2: it is the first byte of `rndIn`, which is used up, or, where `rndIn` is empty, the free value
`Config.rnd` of the count `draws`, and the statement holds for every value of it. -/
def Obligations.RndMasksTheDraw : Prop :=
  ∀ (s : State) (x : Reg) (nn : Byte),
    EncodedAs (.rnd x nn) (0xC000 + 0x100 * x.val + nn.toNat) ∧
    ∃ (t : State) (rnd : Byte), exec (.rnd x nn) s = .next t ∧
    (∀ first rest, s.rndIn = first :: rest → rnd = first ∧ t.rndIn = rest) ∧
    (s.rndIn = [] → rnd = Config.rnd s.draws ∧ t.rndIn = []) ∧ t.draws = s.draws + 1 ∧
    (∀ k, (t.reg x).getLsbD k = (nn.getLsbD k && rnd.getLsbD k)) ∧ (∀ r, r ≠ x → t.reg r = s.reg r) ∧
    t.pc = s.pc + 2 ∧ ChangesOnly [.regs, .draw, .pc] s t

/-! ### Index register and memory (44_index_memory.md) -/

/-- R150, R151, R152: `ANNN`, `FX1E` (wrapping modulo 65536) and `FX29` (unmasked); no flag is written. -/
def Obligations.IndexRegisterWrites : Prop :=
  ∀ (s : State) (nnn : BitVec 12) (x : Reg),
    EncodedAs (.ldIdx nnn) (0xA000 + nnn.toNat) ∧ EncodedAs (.addIdx x) (0xF01E + 0x100 * x.val) ∧
    EncodedAs (.ldGlyph x) (0xF029 + 0x100 * x.val) ∧
    (∃ t, exec (.ldIdx nnn) s = .next t ∧ t.idx.toNat = nnn.toNat ∧ t.pc = s.pc + 2 ∧ ChangesOnly [.idx, .pc] s t) ∧
    (∃ t, exec (.addIdx x) s = .next t ∧ t.idx.toNat = (s.idx.toNat + (s.reg x).toNat) % 65536 ∧ t.pc = s.pc + 2 ∧
      ChangesOnly [.idx, .pc] s t) ∧
    (∃ t, exec (.ldGlyph x) s = .next t ∧ t.idx.toNat = 5 * (s.reg x).toNat ∧ t.pc = s.pc + 2 ∧
      ChangesOnly [.idx, .pc] s t)

/-- R153: `FX33` stores the three decimal digits at `I`, `I + 1`, `I + 2`, or, where they do not fit, raises and stores
nothing. -/
def Obligations.BcdStoresTheDigits : Prop :=
  ∀ (s : State) (x : Reg),
    EncodedAs (.storeBcd x) (0xF033 + 0x100 * x.val) ∧
    (s.idx.toNat + 2 < 0x1000 → ∃ t, exec (.storeBcd x) s = .next t ∧
      t.memRead s.idx.toNat = .ok (BitVec.ofNat 8 ((s.reg x).toNat / 100)) ∧
      t.memRead (s.idx.toNat + 1) = .ok (BitVec.ofNat 8 ((s.reg x).toNat / 10 % 10)) ∧
      t.memRead (s.idx.toNat + 2) = .ok (BitVec.ofNat 8 ((s.reg x).toNat % 10)) ∧
      (∀ a, a < s.idx.toNat ∨ s.idx.toNat + 2 < a → t.memRead a = s.memRead a) ∧
      t.pc = s.pc + 2 ∧ ChangesOnly [.mem, .pc] s t) ∧
    (s.fault = none → 0x1000 ≤ s.idx.toNat + 2 →
      Raises (exec (.storeBcd x) s) s (.memOutOfBounds (max s.idx.toNat 0x1000)))

/-- R154, R156: `FX55` stores V0 to VX at `I` upward and keeps `I`, or, where they do not fit, raises and stores
nothing. -/
def Obligations.StoreRegsStoresV0ToVx : Prop :=
  ∀ (s : State) (x : Reg),
    EncodedAs (.storeRegs x) (0xF055 + 0x100 * x.val) ∧
    (s.idx.toNat + x.val < 0x1000 → ∃ t, exec (.storeRegs x) s = .next t ∧
      (∀ k : Reg, k.val ≤ x.val → t.memRead (s.idx.toNat + k.val) = .ok (s.reg k)) ∧
      (∀ a, a < s.idx.toNat ∨ s.idx.toNat + x.val < a → t.memRead a = s.memRead a) ∧
      t.pc = s.pc + 2 ∧ ChangesOnly [.mem, .pc] s t) ∧
    (s.fault = none → 0x1000 ≤ s.idx.toNat + x.val →
      Raises (exec (.storeRegs x) s) s (.memOutOfBounds (max s.idx.toNat 0x1000)))

/-- R155, R156: `FX65` loads V0 to VX from `I` upward and keeps `I`, or, where they do not fit, raises and loads
nothing. -/
def Obligations.LoadRegsLoadsV0ToVx : Prop :=
  ∀ (s : State) (x : Reg),
    EncodedAs (.loadRegs x) (0xF065 + 0x100 * x.val) ∧
    (s.idx.toNat + x.val < 0x1000 → ∃ t, exec (.loadRegs x) s = .next t ∧
      (∀ k : Reg, k.val ≤ x.val → s.memRead (s.idx.toNat + k.val) = .ok (t.reg k)) ∧
      (∀ k : Reg, x.val < k.val → t.reg k = s.reg k) ∧ t.pc = s.pc + 2 ∧ ChangesOnly [.regs, .pc] s t) ∧
    (s.fault = none → 0x1000 ≤ s.idx.toNat + x.val →
      Raises (exec (.loadRegs x) s) s (.memOutOfBounds (max s.idx.toNat 0x1000)))

/-- R154, R155: a store of V0 to VX, then whatever leaves the memory and `I`, then a load of V0 to VX: the registers are
what they were. -/
def Obligations.StoreThenLoadRestoresTheRegisters : Prop :=
  ∀ (s t u w : State) (x : Reg), s.idx.toNat + x.val < 0x1000 → exec (.storeRegs x) s = .next t → u.mem = t.mem →
    u.idx = s.idx → exec (.loadRegs x) u = .next w → ∀ k : Reg, k.val ≤ x.val → w.reg k = s.reg k

/-! ### Keys, timers and the key wait (45_keys_timers.md) -/

/-- R170, R171, R215: the skips on a key; a register value above 15 raises `BadKeyIndex`. -/
def Obligations.SkipsOnKeys : Prop :=
  ∀ (s : State) (x : Reg),
    EncodedAs (.skp x) (0xE09E + 0x100 * x.val) ∧ EncodedAs (.sknp x) (0xE0A1 + 0x100 * x.val) ∧
    (∀ h : (s.reg x).toNat < 16,
      (∃ t, exec (.skp x) s = .next t ∧ SkipsIf (s.key ⟨(s.reg x).toNat, h⟩ = true) s t) ∧
      (∃ t, exec (.sknp x) s = .next t ∧ SkipsIf (s.key ⟨(s.reg x).toNat, h⟩ = false) s t)) ∧
    (s.fault = none → 15 < (s.reg x).toNat →
      Raises (exec (.skp x) s) s (.badKeyIndex (s.reg x)) ∧ Raises (exec (.sknp x) s) s (.badKeyIndex (s.reg x)))

/-- R172, R174, R175: `FX07` reads `DT`, `FX15` writes it, `FX18` writes `ST`; at the end of the same cycle the timers
count down, so `FX07` reads the value before that and `FX15` and `FX18` leave one less than what they wrote, not below
0. -/
def Obligations.TimerAccess : Prop :=
  ∀ (s : State) (x : Reg),
    EncodedAs (.ldVxDt x) (0xF007 + 0x100 * x.val) ∧ EncodedAs (.ldDtVx x) (0xF015 + 0x100 * x.val) ∧
    EncodedAs (.ldStVx x) (0xF018 + 0x100 * x.val) ∧
    (∃ t, exec (.ldVxDt x) s = .next t ∧ LoadsRegister s t x s.dt) ∧
    (∃ t, exec (.ldDtVx x) s = .next t ∧ t.dt = s.reg x ∧ t.pc = s.pc + 2 ∧ ChangesOnly [.dt, .pc] s t) ∧
    (∃ t, exec (.ldStVx x) s = .next t ∧ t.st = s.reg x ∧ t.pc = s.pc + 2 ∧ ChangesOnly [.st, .pc] s t) ∧
    (s.fault = none → s.pc.toNat + 1 < 0x1000 → ∃ t, step s = .next t ∧
      (decodeWord s.wordAtPc = some (.ldVxDt x) → t.reg x = s.dt ∧ t.dt.toNat = s.dt.toNat - 1) ∧
      (decodeWord s.wordAtPc = some (.ldDtVx x) → t.dt.toNat = (s.reg x).toNat - 1) ∧
      (decodeWord s.wordAtPc = some (.ldStVx x) → t.st.toNat = (s.reg x).toNat - 1))

/-- R173: one cycle of `FX0A`: entry, spin, completion. -/
def Obligations.KeyWaitCycle : Prop :=
  ∀ (s : State) (x : Reg),
    EncodedAs (.ldVxKey x) (0xF00A + 0x100 * x.val) ∧
    (s.waiting = false → ∃ t, exec (.ldVxKey x) s = .next t ∧ t.waiting = true ∧ ChangesOnly [.waiting] s t) ∧
    (s.waiting = true → s.keyNotify = false → exec (.ldVxKey x) s = .next s) ∧
    (s.waiting = true → s.keyNotify = true → ∃ t, exec (.ldVxKey x) s = .next t ∧
      (t.reg x).toNat = s.keyValue.toNat ∧ (∀ r, r ≠ x → t.reg r = s.reg r) ∧ t.waiting = false ∧
      t.keyNotify = false ∧ t.pc = s.pc + 2 ∧ ChangesOnly [.regs, .waiting, .keyNotify, .pc] s t)

/-- R173, R225 (a): a core that waits at an `FX0A` with no key delivered is a fixed point of the step, timers included. -/
def Obligations.WaitingCoreIsAFixedPoint : Prop :=
  ∀ (s : State) (x : Reg), s.waiting = true → s.keyNotify = false → s.pc.toNat + 1 < 0x1000 →
    decodeWord s.wordAtPc = some (.ldVxKey x) → step s = .next s

/-- R177: what a step can do to the key-wait state, whatever it executes. It starts a wait only at an `FX0A`, with `pc`
unchanged, from Idle; it ends one only at an `FX0A` with a key delivered, which goes to `VX`, with `pc` advanced and the
timers left alone; it never sets `key_notify`. -/
def Obligations.KeyWaitTransitions : Prop :=
  ∀ s t : State, step s = .next t →
    (s.waiting = false → t.waiting = true →
      (∃ x, decodeWord s.wordAtPc = some (.ldVxKey x)) ∧ t.pc = s.pc ∧ t.keyNotify = s.keyNotify) ∧
    (s.waiting = true → t.waiting = false → s.keyNotify = true ∧ t.keyNotify = false ∧ t.pc = s.pc + 2 ∧
      t.dt = s.dt ∧ t.st = s.st ∧
      ∃ x, decodeWord s.wordAtPc = some (.ldVxKey x) ∧ (t.reg x).toNat = s.keyValue.toNat) ∧
    (s.keyNotify = false → t.keyNotify = false)

/-! ### Host operations (47_host_interface.md) -/

/-- R24, R241, R191: what reset leaves, element by element, at any time and from any state. -/
def Obligations.ResetLeavesTheResetState : Prop :=
  ∀ s t : State, (t = State.reset ∨ perform .reset s = .next (t, .done)) →
    (∀ k : Fin 80, t.memRead k.val = .ok (Config.font k)) ∧ (∀ a, 0x050 ≤ a → a < 0x1000 → t.memRead a = .ok 0) ∧
    (∀ r, t.reg r = 0) ∧ t.idx = 0 ∧ t.pc = 0x200 ∧ (∀ (k : Nat) (h : k < 16), t.stack[k] = 0) ∧ t.sp.val = 0 ∧
    t.dt = 0 ∧ t.st = 0 ∧ (∀ px py, t.fb.pixel px py = false) ∧ t.drawFlag = false ∧ (∀ k, t.key k = false) ∧
    t.waiting = false ∧ t.keyValue = 0 ∧ t.keyNotify = false ∧ t.fault = none

/-- The model's choice, log entry 10: the nine operations of R190 are one function `perform`, which answers a next state
and a result. Log entry 3: a load that does not fit and a step that faults are next states too. It is so on every state. -/
def Obligations.HostOperationsAlwaysAnswer : Prop :=
  (∀ s : State, ∃ t, perform .reset s = .next (t, .done)) ∧
  ∀ (op : HostOp) (s : State), ∃ r, perform op s = .next r

/-- R242: right after reset, before any load, a step finds the sentinel and does nothing. -/
def Obligations.UnloadedCoreIdles : Prop := step State.reset = .next State.reset

/-- R192: `load` copies the image to 0x200 upward and changes nothing else; one of more than 3584 bytes writes nothing and
raises `MemOutOfBounds(0x1000)`, unless the latch already holds a fault, which it keeps. -/
def Obligations.LoadCopiesTheImage : Prop :=
  ∀ (s : State) (image : List Byte),
    (image.length ≤ 3584 → ∃ t, perform (.load image) s = .next (t, .done) ∧
      (∀ (k : Nat) (h : k < image.length), t.memRead (0x200 + k) = .ok image[k]) ∧
      (∀ a, a < 0x200 ∨ 0x200 + image.length ≤ a → t.memRead a = s.memRead a) ∧ ChangesOnly [.mem] s t) ∧
    (3584 < image.length →
      (s.fault = none → perform (.load image) s = .next ({ s with fault := some (.memOutOfBounds 0x1000) }, .done)) ∧
      (s.fault ≠ none → perform (.load image) s = .next (s, .done)))

/-- R193, R194: a key press and a key release; a code above 15 is ignored. -/
def Obligations.KeyEvents : Prop :=
  ∀ (s : State) (c : Nat),
    (15 < c → perform (.setKey c) s = .next (s, .done) ∧ perform (.clearKey c) s = .next (s, .done)) ∧
    (∀ h : c < 16,
      (∃ t, perform (.setKey c) s = .next (t, .done) ∧ t.key ⟨c, h⟩ = true ∧ (∀ k, k.val ≠ c → t.key k = s.key k) ∧
        (s.waiting = true → t.keyValue.toNat = c ∧ t.keyNotify = true) ∧
        (s.waiting = false → t.keyValue = s.keyValue ∧ t.keyNotify = s.keyNotify) ∧
        ChangesOnly [.keys, .keyValue, .keyNotify] s t) ∧
      (∃ t, perform (.clearKey c) s = .next (t, .done) ∧ t.key ⟨c, h⟩ = false ∧
        (∀ k, k.val ≠ c → t.key k = s.key k) ∧ ChangesOnly [.keys] s t))

/-- R195 to R198: the four operations on the outputs. Pixel `(px, py)` is cell `px + py*64` of the frame (R17). -/
def Obligations.HostReadsTheOutputs : Prop :=
  ∀ s : State,
    (∃ f, perform .readFrame s = .next (s, .frame f s.drawFlag) ∧
      ∀ (px : Fin 64) (py : Fin 32), f.cell ⟨px.val + py.val * 64, by omega⟩ = s.fb.pixel px py) ∧
    (∃ t, perform .clearDrawFlag s = .next (t, .done) ∧ t.drawFlag = false ∧ ChangesOnly [.drawFlag] s t) ∧
    perform .readSoundTimer s = .next (s, .soundTimer s.st) ∧ perform .readFault s = .next (s, .fault s.fault)

/-- R199: on every state and whatever the word at `pc`, `step(rnd)` takes the core where a step whose draw is `rnd` takes
it, which is `Step(rnd)` of R90. R141: a `CXNN` at `pc` then writes `NN AND rnd`. That the model's own supply of draws
stays as it was is the model's choice, log entry 2. -/
def Obligations.HostStepSuppliesTheDraw : Prop :=
  ∀ (s : State) (rnd : Byte),
    (∃ u, step { s with rndIn := rnd :: s.rndIn } = .next u ∧
      CoreState.step rnd s.toCoreState = .next u.toCoreState ∧
      perform (.step rnd) s = .next ({ s with toCoreState := u.toCoreState }, .done)) ∧
    ∀ (x : Reg) (nn : Byte), s.fault = none → s.pc.toNat + 1 < 0x1000 → decodeWord s.wordAtPc = some (.rnd x nn) →
      ∃ t, perform (.step rnd) s = .next (t, .done) ∧
        (∀ k, (t.reg x).getLsbD k = (nn.getLsbD k && rnd.getLsbD k)) ∧ (∀ r, r ≠ x → t.reg r = s.reg r) ∧
        t.pc = s.pc + 2 ∧ t.dt.toNat = s.dt.toNat - 1 ∧ t.st.toNat = s.st.toNat - 1 ∧
        ChangesOnly [.regs, .pc, .dt, .st] s t

/-- R201, R25 (g), R218: once a fault is latched, no operation but reset changes anything but the key flags, the key-wait
delivery fields, `draw_flag` and, for `load`, memory; the latch keeps the fault, and `step` changes nothing. -/
def Obligations.FaultedCoreKeepsItsState : Prop :=
  ∀ (s t : State) (op : HostOp) (r : Reply) (f : Fault), s.fault = some f → op ≠ .reset →
    perform op s = .next (t, r) →
    t.fault = some f ∧ ChangesOnly [.keys, .keyValue, .keyNotify, .drawFlag, .mem] s t ∧
    ((∀ image, op ≠ .load image) → ∀ a, t.memRead a = s.memRead a) ∧ (∀ rnd, op = .step rnd → t = s)

/-! ### Invariants (10_state.md R25) -/

/-- The state after reset meets the invariant, and waits at nothing. -/
def Obligations.ResetMeetsTheInvariant : Prop := Inv State.reset ∧ WaitsAtKeyInstruction State.reset

/-- R25 (c), (e), R14, R15: every step keeps the invariant, from every state that meets it: memory stays in its canonical
form, `key_notify` implies `waiting`, `pc` stays at most 0x10FE and every stack entry in use at most 0x1000. -/
def Obligations.StepKeepsTheInvariant : Prop := ∀ s t : State, Inv s → step s = .next t → Inv t

/-- R25 (f), R179: every step keeps a waiting core at an `FX0A`. -/
def Obligations.StepKeepsTheKeyWait : Prop :=
  ∀ s t : State, WaitsAtKeyInstruction s → step s = .next t → WaitsAtKeyInstruction t

/-- R25: every host operation keeps the invariant, and, if it keeps duty H4, keeps a waiting core at an `FX0A`. -/
def Obligations.HostOperationsKeepTheInvariants : Prop :=
  ∀ (s t : State) (op : HostOp) (r : Reply), perform op s = .next (t, r) →
    (Inv s → Inv t) ∧ (KeepsH4 op s → WaitsAtKeyInstruction s → WaitsAtKeyInstruction t)

/-- R25: in every state of every history of loads, steps, key events and reads that begins with a reset, the invariant
holds; and if the host never loads while the core waits (duty H4), a waiting core has an `FX0A` at `pc`. -/
def Obligations.ReachableStatesMeetTheInvariants : Prop :=
  (∀ s : State, Reachable (fun _ _ => True) s → Inv s) ∧
  (∀ s : State, Reachable KeepsH4 s → Inv s ∧ WaitsAtKeyInstruction s)
end

