-- ==== Sys2Proof/Laws/Decode.lean ====
section
/-! SUPPORT. The bits and fields of a word that the encoder builds, and the bytes of a word. -/

namespace Sys2Proof

-- one theorem at a time: each theorem elaborated beside others holds a thread's stack, and memory is limited
set_option Elab.async false

/-! ### Register fields -/

@[simp] theorem regOfField_fieldOfReg (r : Reg) : regOfField (fieldOfReg r) = r := by
  apply Fin.ext; simp only [regOfField, fieldOfReg, BitVec.toNat_ofNat]; omega

@[simp] theorem fieldOfReg_regOfField (f : BitVec 4) : fieldOfReg (regOfField f) = f := by
  simp [regOfField, fieldOfReg]

/-! ### Bit by bit -/

theorem getLsbD_wordOfBytes (hi lo : Byte) (k : Nat) :
    (wordOfBytes hi lo).getLsbD k = if k < 8 then lo.getLsbD k else hi.getLsbD (k - 8) := BitVec.getLsbD_append

theorem getLsbD_wordNNN (op : BitVec 4) (nnn : BitVec 12) (k : Nat) :
    (wordNNN op nnn).getLsbD k = if k < 12 then nnn.getLsbD k else op.getLsbD (k - 12) := BitVec.getLsbD_append

theorem getLsbD_wordXNN (op : BitVec 4) (x : Reg) (nn : Byte) (k : Nat) :
    (wordXNN op x nn).getLsbD k =
      if k < 8 then nn.getLsbD k
      else if k - 8 < 4 then (fieldOfReg x).getLsbD (k - 8) else op.getLsbD (k - 8 - 4) := by
  refine Eq.trans (BitVec.getLsbD_append (x := op ++ fieldOfReg x) (y := nn)) ?_
  rw [BitVec.getLsbD_append]

theorem getLsbD_wordXY (op : BitVec 4) (x y : Reg) (n : BitVec 4) (k : Nat) :
    (wordXY op x y n).getLsbD k =
      if k < 4 then n.getLsbD k
      else if k - 4 < 4 then (fieldOfReg y).getLsbD (k - 4)
      else if k - 4 - 4 < 4 then (fieldOfReg x).getLsbD (k - 4 - 4) else op.getLsbD (k - 4 - 4 - 4) := by
  refine Eq.trans (BitVec.getLsbD_append (x := op ++ fieldOfReg x ++ fieldOfReg y) (y := n)) ?_
  rw [BitVec.getLsbD_append, BitVec.getLsbD_append]

/-- A field at bits `lo + n − 1` down to `lo`, read bit by bit. -/
theorem extractLsb'_eq_of_bits {n : Nat} {w : Word} {lo : Nat} {f : BitVec n}
    (h : ∀ k, k < n → w.getLsbD (lo + k) = f.getLsbD k) : w.extractLsb' lo n = f := by
  apply BitVec.eq_of_getLsbD_eq
  intro k hk
  rw [BitVec.getLsbD_extractLsb', h k hk]
  simp [hk]

/-! ### The two bytes of a word -/

@[simp] theorem highByte_wordOfBytes (hi lo : Byte) : highByte (wordOfBytes hi lo) = hi :=
  extractLsb'_eq_of_bits fun k _ => by
    rw [getLsbD_wordOfBytes, if_neg (by omega)]; congr 1; omega

@[simp] theorem lowByte_wordOfBytes (hi lo : Byte) : lowByte (wordOfBytes hi lo) = lo :=
  extractLsb'_eq_of_bits fun k _ => by
    rw [getLsbD_wordOfBytes, if_pos (by omega)]; congr 1; omega

@[simp] theorem wordOfBytes_high_low (w : Word) : wordOfBytes (highByte w) (lowByte w) = w := by
  apply BitVec.eq_of_getLsbD_eq
  intro k hk
  rw [getLsbD_wordOfBytes]
  simp only [highByte, lowByte, BitVec.getLsbD_extractLsb']
  split
  · next h => simp [h]
  · next h =>
    have h1 : k - 8 < 8 := by omega
    have h2 : 8 + (k - 8) = k := by omega
    simp [h1, h2]

/-! ### Format NNN -/

section NNN
variable (op : BitVec 4) (nnn : BitVec 12)

@[simp] theorem fieldOp_wordNNN : fieldOp (wordNNN op nnn) = op :=
  extractLsb'_eq_of_bits fun k _ => by
    rw [getLsbD_wordNNN, if_neg (by omega)]; congr 1; omega

@[simp] theorem fieldNNN_wordNNN : fieldNNN (wordNNN op nnn) = nnn :=
  extractLsb'_eq_of_bits fun k _ => by
    rw [getLsbD_wordNNN, if_pos (by omega)]; congr 1; omega

end NNN

/-! ### Formats XNN and X -/

section XNN
variable (op : BitVec 4) (x : Reg) (nn : Byte)

@[simp] theorem fieldOp_wordXNN : fieldOp (wordXNN op x nn) = op :=
  extractLsb'_eq_of_bits fun k _ => by
    rw [getLsbD_wordXNN, if_neg (by omega), if_neg (by omega)]; congr 1; omega

@[simp] theorem fieldX_wordXNN : fieldX (wordXNN op x nn) = x := by
  have h : (wordXNN op x nn).extractLsb' 8 4 = fieldOfReg x :=
    extractLsb'_eq_of_bits fun k _ => by
      rw [getLsbD_wordXNN, if_neg (by omega), if_pos (by omega)]; congr 1; omega
  rw [fieldX, h, regOfField_fieldOfReg]

@[simp] theorem fieldNN_wordXNN : fieldNN (wordXNN op x nn) = nn :=
  extractLsb'_eq_of_bits fun k _ => by
    rw [getLsbD_wordXNN, if_pos (by omega)]; congr 1; omega

end XNN

/-! ### Formats XY and XYN -/

section XY
variable (op : BitVec 4) (x y : Reg) (n : BitVec 4)

@[simp] theorem fieldOp_wordXY : fieldOp (wordXY op x y n) = op :=
  extractLsb'_eq_of_bits fun k _ => by
    rw [getLsbD_wordXY, if_neg (by omega), if_neg (by omega), if_neg (by omega)]; congr 1; omega

@[simp] theorem fieldX_wordXY : fieldX (wordXY op x y n) = x := by
  have h : (wordXY op x y n).extractLsb' 8 4 = fieldOfReg x :=
    extractLsb'_eq_of_bits fun k _ => by
      rw [getLsbD_wordXY, if_neg (by omega), if_neg (by omega), if_pos (by omega)]; congr 1; omega
  rw [fieldX, h, regOfField_fieldOfReg]

@[simp] theorem fieldY_wordXY : fieldY (wordXY op x y n) = y := by
  have h : (wordXY op x y n).extractLsb' 4 4 = fieldOfReg y :=
    extractLsb'_eq_of_bits fun k _ => by
      rw [getLsbD_wordXY, if_neg (by omega), if_pos (by omega)]; congr 1; omega
  rw [fieldY, h, regOfField_fieldOfReg]

@[simp] theorem fieldN_wordXY : fieldN (wordXY op x y n) = n :=
  extractLsb'_eq_of_bits fun k _ => by
    rw [getLsbD_wordXY, if_pos (by omega)]; congr 1; omega

end XY

/-! ### A word from its fields -/

theorem wordNNN_of_fields (w : Word) : wordNNN (fieldOp w) (fieldNNN w) = w := by
  apply BitVec.eq_of_getLsbD_eq
  intro k hk
  rw [getLsbD_wordNNN]
  simp only [fieldOp, fieldNNN, BitVec.getLsbD_extractLsb']
  split
  · simp_all
  · have h1 : 12 + (k - 12) = k := by omega
    have h2 : k - 12 < 4 := by omega
    simp [h1, h2]

theorem wordXNN_of_fields (w : Word) : wordXNN (fieldOp w) (fieldX w) (fieldNN w) = w := by
  apply BitVec.eq_of_getLsbD_eq
  intro k hk
  rw [getLsbD_wordXNN]
  simp only [fieldOp, fieldX, fieldNN, fieldOfReg_regOfField, BitVec.getLsbD_extractLsb']
  split
  · simp_all
  · split
    · have h1 : 8 + (k - 8) = k := by omega
      simp_all
    · have h1 : 12 + (k - 8 - 4) = k := by omega
      have h2 : k - 8 - 4 < 4 := by omega
      simp [h1, h2]

theorem wordXY_of_fields (w : Word) : wordXY (fieldOp w) (fieldX w) (fieldY w) (fieldN w) = w := by
  apply BitVec.eq_of_getLsbD_eq
  intro k hk
  rw [getLsbD_wordXY]
  simp only [fieldOp, fieldX, fieldY, fieldN, fieldOfReg_regOfField, BitVec.getLsbD_extractLsb']
  split
  · simp_all
  · split
    · have h1 : 4 + (k - 4) = k := by omega
      simp_all
    · split
      · have h1 : 8 + (k - 4 - 4) = k := by omega
        simp_all
      · have h1 : 12 + (k - 4 - 4 - 4) = k := by omega
        have h2 : k - 4 - 4 - 4 < 4 := by omega
        simp [h1, h2]

/-! ### Fields as natural numbers -/

theorem fieldOp_toNat (w : Word) : (fieldOp w).toNat = w.toNat / 0x1000 := by
  have := w.isLt
  simp only [fieldOp, BitVec.extractLsb'_toNat, Nat.shiftRight_eq_div_pow]; omega

theorem fieldN_toNat (w : Word) : (fieldN w).toNat = w.toNat % 0x10 := by
  simp only [fieldN, BitVec.extractLsb'_toNat, Nat.shiftRight_eq_div_pow]; omega

theorem fieldNN_toNat (w : Word) : (fieldNN w).toNat = w.toNat % 0x100 := by
  simp only [fieldNN, BitVec.extractLsb'_toNat, Nat.shiftRight_eq_div_pow]; omega

/-! ### The masks of the formats (R62) -/

/-- Format NNN fixes the primary opcode only. -/
theorem wordNNN_and_mask (op : BitVec 4) (nnn : BitVec 12) : wordNNN op nnn &&& 0xF000 = op ++ 0#12 := by
  show (op ++ nnn) &&& ((0xF : BitVec 4) ++ 0#12) = _
  rw [BitVec.and_append, show op &&& 0xF = op from BitVec.and_allOnes, BitVec.and_zero]

/-- Format XNN fixes the primary opcode only. -/
theorem wordXNN_and_mask_op (op : BitVec 4) (x : Reg) (nn : Byte) :
    wordXNN op x nn &&& 0xF000 = op ++ 0#4 ++ 0#8 := by
  show (op ++ fieldOfReg x ++ nn) &&& ((0xF : BitVec 4) ++ 0#4 ++ 0#8) = _
  rw [BitVec.and_append, BitVec.and_append, show op &&& 0xF = op from BitVec.and_allOnes, BitVec.and_zero,
    BitVec.and_zero]

/-- Format X fixes the primary opcode and the low byte. -/
theorem wordXNN_and_mask (op : BitVec 4) (x : Reg) (nn : Byte) :
    wordXNN op x nn &&& 0xF0FF = op ++ 0#4 ++ nn := by
  show (op ++ fieldOfReg x ++ nn) &&& ((0xF : BitVec 4) ++ 0#4 ++ (0xFF : Byte)) = _
  rw [BitVec.and_append, BitVec.and_append, show op &&& 0xF = op from BitVec.and_allOnes, BitVec.and_zero,
    show nn &&& 0xFF = nn from BitVec.and_allOnes]

/-- Format XY fixes the primary opcode and the low nibble. -/
theorem wordXY_and_mask (op : BitVec 4) (x y : Reg) (n : BitVec 4) :
    wordXY op x y n &&& 0xF00F = (op ++ 0#4 ++ 0#4 ++ n : BitVec 16) := by
  show (op ++ fieldOfReg x ++ fieldOfReg y ++ n : BitVec 16) &&&
    ((0xF : BitVec 4) ++ 0#4 ++ 0#4 ++ (0xF : BitVec 4) : BitVec 16) = _
  rw [BitVec.and_append, BitVec.and_append, BitVec.and_append, show op &&& 0xF = op from BitVec.and_allOnes,
    BitVec.and_zero, BitVec.and_zero, show n &&& 0xF = n from BitVec.and_allOnes]

/-- Format XYN fixes the primary opcode only. -/
theorem wordXY_and_mask_op (op : BitVec 4) (x y : Reg) (n : BitVec 4) :
    wordXY op x y n &&& 0xF000 = (op ++ 0#4 ++ 0#4 ++ 0#4 : BitVec 16) := by
  show (op ++ fieldOfReg x ++ fieldOfReg y ++ n : BitVec 16) &&&
    ((0xF : BitVec 4) ++ 0#4 ++ 0#4 ++ 0#4 : BitVec 16) = _
  rw [BitVec.and_append, BitVec.and_append, BitVec.and_append, show op &&& 0xF = op from BitVec.and_allOnes,
    BitVec.and_zero, BitVec.and_zero, BitVec.and_zero]

/-! ### Fields of a masked word -/

@[simp] theorem fieldOp_and (w m : Word) : fieldOp (w &&& m) = fieldOp w &&& fieldOp m := BitVec.extractLsb'_and

@[simp] theorem fieldN_and (w m : Word) : fieldN (w &&& m) = fieldN w &&& fieldN m := BitVec.extractLsb'_and

@[simp] theorem fieldNN_and (w m : Word) : fieldNN (w &&& m) = fieldNN w &&& fieldNN m := BitVec.extractLsb'_and

/-! ### Words as natural numbers -/

theorem append_toNat {n m : Nat} (a : BitVec n) (b : BitVec m) : (a ++ b).toNat = a.toNat * 2 ^ m + b.toNat := by
  rw [BitVec.toNat_append, ← Nat.shiftLeft_add_eq_or_of_lt b.isLt, Nat.shiftLeft_eq]

theorem wordNNN_toNat (op : BitVec 4) (nnn : BitVec 12) :
    (wordNNN op nnn).toNat = 0x1000 * op.toNat + nnn.toNat := by
  refine (append_toNat op nnn).trans ?_; omega

theorem wordXNN_toNat (op : BitVec 4) (x : Reg) (nn : Byte) :
    (wordXNN op x nn).toNat = 0x1000 * op.toNat + 0x100 * x.val + nn.toNat := by
  have hx : (fieldOfReg x).toNat = x.val := by simp only [fieldOfReg, BitVec.toNat_ofNat]; omega
  refine (append_toNat (op ++ fieldOfReg x) nn).trans ?_
  rw [append_toNat, hx]; omega

theorem wordXY_toNat (op : BitVec 4) (x y : Reg) (n : BitVec 4) :
    (wordXY op x y n).toNat = 0x1000 * op.toNat + 0x100 * x.val + 0x10 * y.val + n.toNat := by
  have hr : ∀ r : Reg, (fieldOfReg r).toNat = r.val := fun r => by
    simp only [fieldOfReg, BitVec.toNat_ofNat]; omega
  refine (append_toNat (op ++ fieldOfReg x ++ fieldOfReg y) n).trans ?_
  rw [append_toNat, append_toNat, hr, hr]; omega

end Sys2Proof
end

