-- ==== Sys2Proof/Laws/Operands.lean ====
section
/-! SUPPORT. The operand forms and flags, as natural numbers. -/

namespace Sys2Proof.Machine

-- one theorem at a time: each theorem elaborated beside others holds a thread's stack, and memory is limited
set_option Elab.async false

@[simp] theorem addressOf_toNat (nnn : BitVec 12) : (addressOf nnn).toNat = nnn.toNat := by
  simp only [addressOf, BitVec.truncate_eq_setWidth, BitVec.toNat_setWidth]; have := nnn.isLt; omega

/-- The sum is at most 0x10FE, so the 16-bit truncation never acts (R117). -/
@[simp] theorem offsetTarget_toNat (nnn : BitVec 12) (v : Byte) :
    (offsetTarget nnn v).toNat = nnn.toNat + v.toNat := by
  simp only [offsetTarget, BitVec.toNat_add, addressOf_toNat, BitVec.truncate_eq_setWidth, BitVec.toNat_setWidth]
  have := nnn.isLt; have := v.isLt; omega

@[simp] theorem glyphAddress_toNat (v : Byte) : (glyphAddress v).toNat = 5 * v.toNat := by
  have h5 : (5 : Word).toNat = 5 := rfl
  simp only [glyphAddress, BitVec.toNat_mul, BitVec.truncate_eq_setWidth, BitVec.toNat_setWidth, h5]
  have := v.isLt; omega

@[simp] theorem length_decimalDigits (v : Byte) : (decimalDigits v).length = 3 := rfl

@[simp] theorem keyCode_toNat (k : BitVec 4) : (keyCode k).toNat = k.toNat := by
  simp only [keyCode, BitVec.truncate_eq_setWidth, BitVec.toNat_setWidth]; have := k.isLt; omega

/-- Everything a key index can be (R170, R215). -/
theorem keyIndex_eq (v : Byte) :
    (∃ h : v.toNat < 16, keyIndex v = .ok ⟨v.toNat, h⟩) ∨
    (16 ≤ v.toNat ∧ keyIndex v = .error (.badKeyIndex v)) := by
  by_cases h : v.toNat < 16
  · exact .inl ⟨h, by simp [keyIndex, h]⟩
  · exact .inr ⟨by omega, by simp [keyIndex, h]⟩

theorem flag_eq_one (c : Bool) : flag c = 1 ↔ c = true := by cases c <;> decide

theorem flag_eq_zero (c : Bool) : flag c = 0 ↔ c = false := by cases c <;> decide

end Sys2Proof.Machine
end

