-- ==== Sys2Proof/Laws/State.lean ====
section
/-! SUPPORT. One lemma per field and update of the state, so that no later proof unfolds a record update. -/

namespace Sys2Proof.Machine

-- one theorem at a time: each theorem elaborated beside others holds a thread's stack, and memory is limited
set_option Elab.async false

/-- The state after reset is the core after reset, with no draw given. -/
@[simp] theorem State.reset_toCoreState : State.reset.toCoreState = CoreState.reset := rfl

variable (s : State)

/-! ### `setReg` -/

@[simp] theorem State.setReg_mem (r : Reg) (b : Byte) : (s.setReg r b).mem = s.mem := rfl
@[simp] theorem State.setReg_v (r : Reg) (b : Byte) : (s.setReg r b).v = s.v.set r.val b := rfl
@[simp] theorem State.setReg_idx (r : Reg) (b : Byte) : (s.setReg r b).idx = s.idx := rfl
@[simp] theorem State.setReg_pc (r : Reg) (b : Byte) : (s.setReg r b).pc = s.pc := rfl
@[simp] theorem State.setReg_stack (r : Reg) (b : Byte) : (s.setReg r b).stack = s.stack := rfl
@[simp] theorem State.setReg_sp (r : Reg) (b : Byte) : (s.setReg r b).sp = s.sp := rfl
@[simp] theorem State.setReg_dt (r : Reg) (b : Byte) : (s.setReg r b).dt = s.dt := rfl
@[simp] theorem State.setReg_st (r : Reg) (b : Byte) : (s.setReg r b).st = s.st := rfl
@[simp] theorem State.setReg_fb (r : Reg) (b : Byte) : (s.setReg r b).fb = s.fb := rfl
@[simp] theorem State.setReg_drawFlag (r : Reg) (b : Byte) : (s.setReg r b).drawFlag = s.drawFlag := rfl
@[simp] theorem State.setReg_keys (r : Reg) (b : Byte) : (s.setReg r b).keys = s.keys := rfl
@[simp] theorem State.setReg_waiting (r : Reg) (b : Byte) : (s.setReg r b).waiting = s.waiting := rfl
@[simp] theorem State.setReg_keyValue (r : Reg) (b : Byte) : (s.setReg r b).keyValue = s.keyValue := rfl
@[simp] theorem State.setReg_keyNotify (r : Reg) (b : Byte) : (s.setReg r b).keyNotify = s.keyNotify := rfl
@[simp] theorem State.setReg_fault (r : Reg) (b : Byte) : (s.setReg r b).fault = s.fault := rfl
@[simp] theorem State.setReg_rndIn (r : Reg) (b : Byte) : (s.setReg r b).rndIn = s.rndIn := rfl
@[simp] theorem State.setReg_draws (r : Reg) (b : Byte) : (s.setReg r b).draws = s.draws := rfl

/-! ### `setIdx` -/

@[simp] theorem State.setIdx_mem (w : Word) : (s.setIdx w).mem = s.mem := rfl
@[simp] theorem State.setIdx_v (w : Word) : (s.setIdx w).v = s.v := rfl
@[simp] theorem State.setIdx_idx (w : Word) : (s.setIdx w).idx = w := rfl
@[simp] theorem State.setIdx_pc (w : Word) : (s.setIdx w).pc = s.pc := rfl
@[simp] theorem State.setIdx_stack (w : Word) : (s.setIdx w).stack = s.stack := rfl
@[simp] theorem State.setIdx_sp (w : Word) : (s.setIdx w).sp = s.sp := rfl
@[simp] theorem State.setIdx_dt (w : Word) : (s.setIdx w).dt = s.dt := rfl
@[simp] theorem State.setIdx_st (w : Word) : (s.setIdx w).st = s.st := rfl
@[simp] theorem State.setIdx_fb (w : Word) : (s.setIdx w).fb = s.fb := rfl
@[simp] theorem State.setIdx_drawFlag (w : Word) : (s.setIdx w).drawFlag = s.drawFlag := rfl
@[simp] theorem State.setIdx_keys (w : Word) : (s.setIdx w).keys = s.keys := rfl
@[simp] theorem State.setIdx_waiting (w : Word) : (s.setIdx w).waiting = s.waiting := rfl
@[simp] theorem State.setIdx_keyValue (w : Word) : (s.setIdx w).keyValue = s.keyValue := rfl
@[simp] theorem State.setIdx_keyNotify (w : Word) : (s.setIdx w).keyNotify = s.keyNotify := rfl
@[simp] theorem State.setIdx_fault (w : Word) : (s.setIdx w).fault = s.fault := rfl
@[simp] theorem State.setIdx_rndIn (w : Word) : (s.setIdx w).rndIn = s.rndIn := rfl
@[simp] theorem State.setIdx_draws (w : Word) : (s.setIdx w).draws = s.draws := rfl

/-! ### `jump` -/

@[simp] theorem State.jump_mem (w : Word) : (s.jump w).mem = s.mem := rfl
@[simp] theorem State.jump_v (w : Word) : (s.jump w).v = s.v := rfl
@[simp] theorem State.jump_idx (w : Word) : (s.jump w).idx = s.idx := rfl
@[simp] theorem State.jump_pc (w : Word) : (s.jump w).pc = w := rfl
@[simp] theorem State.jump_stack (w : Word) : (s.jump w).stack = s.stack := rfl
@[simp] theorem State.jump_sp (w : Word) : (s.jump w).sp = s.sp := rfl
@[simp] theorem State.jump_dt (w : Word) : (s.jump w).dt = s.dt := rfl
@[simp] theorem State.jump_st (w : Word) : (s.jump w).st = s.st := rfl
@[simp] theorem State.jump_fb (w : Word) : (s.jump w).fb = s.fb := rfl
@[simp] theorem State.jump_drawFlag (w : Word) : (s.jump w).drawFlag = s.drawFlag := rfl
@[simp] theorem State.jump_keys (w : Word) : (s.jump w).keys = s.keys := rfl
@[simp] theorem State.jump_waiting (w : Word) : (s.jump w).waiting = s.waiting := rfl
@[simp] theorem State.jump_keyValue (w : Word) : (s.jump w).keyValue = s.keyValue := rfl
@[simp] theorem State.jump_keyNotify (w : Word) : (s.jump w).keyNotify = s.keyNotify := rfl
@[simp] theorem State.jump_fault (w : Word) : (s.jump w).fault = s.fault := rfl
@[simp] theorem State.jump_rndIn (w : Word) : (s.jump w).rndIn = s.rndIn := rfl
@[simp] theorem State.jump_draws (w : Word) : (s.jump w).draws = s.draws := rfl

/-! ### `advance` -/

@[simp] theorem State.advance_mem : (s.advance).mem = s.mem := rfl
@[simp] theorem State.advance_v : (s.advance).v = s.v := rfl
@[simp] theorem State.advance_idx : (s.advance).idx = s.idx := rfl
@[simp] theorem State.advance_pc : (s.advance).pc = s.pc + 2 := rfl
@[simp] theorem State.advance_stack : (s.advance).stack = s.stack := rfl
@[simp] theorem State.advance_sp : (s.advance).sp = s.sp := rfl
@[simp] theorem State.advance_dt : (s.advance).dt = s.dt := rfl
@[simp] theorem State.advance_st : (s.advance).st = s.st := rfl
@[simp] theorem State.advance_fb : (s.advance).fb = s.fb := rfl
@[simp] theorem State.advance_drawFlag : (s.advance).drawFlag = s.drawFlag := rfl
@[simp] theorem State.advance_keys : (s.advance).keys = s.keys := rfl
@[simp] theorem State.advance_waiting : (s.advance).waiting = s.waiting := rfl
@[simp] theorem State.advance_keyValue : (s.advance).keyValue = s.keyValue := rfl
@[simp] theorem State.advance_keyNotify : (s.advance).keyNotify = s.keyNotify := rfl
@[simp] theorem State.advance_fault : (s.advance).fault = s.fault := rfl
@[simp] theorem State.advance_rndIn : (s.advance).rndIn = s.rndIn := rfl
@[simp] theorem State.advance_draws : (s.advance).draws = s.draws := rfl

/-! ### `skip` -/

@[simp] theorem State.skip_mem (c : Bool) : (s.skip c).mem = s.mem := rfl
@[simp] theorem State.skip_v (c : Bool) : (s.skip c).v = s.v := rfl
@[simp] theorem State.skip_idx (c : Bool) : (s.skip c).idx = s.idx := rfl
@[simp] theorem State.skip_pc (c : Bool) : (s.skip c).pc = if c then s.pc + 4 else s.pc + 2 := rfl
@[simp] theorem State.skip_stack (c : Bool) : (s.skip c).stack = s.stack := rfl
@[simp] theorem State.skip_sp (c : Bool) : (s.skip c).sp = s.sp := rfl
@[simp] theorem State.skip_dt (c : Bool) : (s.skip c).dt = s.dt := rfl
@[simp] theorem State.skip_st (c : Bool) : (s.skip c).st = s.st := rfl
@[simp] theorem State.skip_fb (c : Bool) : (s.skip c).fb = s.fb := rfl
@[simp] theorem State.skip_drawFlag (c : Bool) : (s.skip c).drawFlag = s.drawFlag := rfl
@[simp] theorem State.skip_keys (c : Bool) : (s.skip c).keys = s.keys := rfl
@[simp] theorem State.skip_waiting (c : Bool) : (s.skip c).waiting = s.waiting := rfl
@[simp] theorem State.skip_keyValue (c : Bool) : (s.skip c).keyValue = s.keyValue := rfl
@[simp] theorem State.skip_keyNotify (c : Bool) : (s.skip c).keyNotify = s.keyNotify := rfl
@[simp] theorem State.skip_fault (c : Bool) : (s.skip c).fault = s.fault := rfl
@[simp] theorem State.skip_rndIn (c : Bool) : (s.skip c).rndIn = s.rndIn := rfl
@[simp] theorem State.skip_draws (c : Bool) : (s.skip c).draws = s.draws := rfl

/-! ### `setScreen` -/

@[simp] theorem State.setScreen_mem (f : Screen) : (s.setScreen f).mem = s.mem := rfl
@[simp] theorem State.setScreen_v (f : Screen) : (s.setScreen f).v = s.v := rfl
@[simp] theorem State.setScreen_idx (f : Screen) : (s.setScreen f).idx = s.idx := rfl
@[simp] theorem State.setScreen_pc (f : Screen) : (s.setScreen f).pc = s.pc := rfl
@[simp] theorem State.setScreen_stack (f : Screen) : (s.setScreen f).stack = s.stack := rfl
@[simp] theorem State.setScreen_sp (f : Screen) : (s.setScreen f).sp = s.sp := rfl
@[simp] theorem State.setScreen_dt (f : Screen) : (s.setScreen f).dt = s.dt := rfl
@[simp] theorem State.setScreen_st (f : Screen) : (s.setScreen f).st = s.st := rfl
@[simp] theorem State.setScreen_fb (f : Screen) : (s.setScreen f).fb = f := rfl
@[simp] theorem State.setScreen_drawFlag (f : Screen) : (s.setScreen f).drawFlag = true := rfl
@[simp] theorem State.setScreen_keys (f : Screen) : (s.setScreen f).keys = s.keys := rfl
@[simp] theorem State.setScreen_waiting (f : Screen) : (s.setScreen f).waiting = s.waiting := rfl
@[simp] theorem State.setScreen_keyValue (f : Screen) : (s.setScreen f).keyValue = s.keyValue := rfl
@[simp] theorem State.setScreen_keyNotify (f : Screen) : (s.setScreen f).keyNotify = s.keyNotify := rfl
@[simp] theorem State.setScreen_fault (f : Screen) : (s.setScreen f).fault = s.fault := rfl
@[simp] theorem State.setScreen_rndIn (f : Screen) : (s.setScreen f).rndIn = s.rndIn := rfl
@[simp] theorem State.setScreen_draws (f : Screen) : (s.setScreen f).draws = s.draws := rfl

/-! ### `setDt` -/

@[simp] theorem State.setDt_mem (b : Byte) : (s.setDt b).mem = s.mem := rfl
@[simp] theorem State.setDt_v (b : Byte) : (s.setDt b).v = s.v := rfl
@[simp] theorem State.setDt_idx (b : Byte) : (s.setDt b).idx = s.idx := rfl
@[simp] theorem State.setDt_pc (b : Byte) : (s.setDt b).pc = s.pc := rfl
@[simp] theorem State.setDt_stack (b : Byte) : (s.setDt b).stack = s.stack := rfl
@[simp] theorem State.setDt_sp (b : Byte) : (s.setDt b).sp = s.sp := rfl
@[simp] theorem State.setDt_dt (b : Byte) : (s.setDt b).dt = b := rfl
@[simp] theorem State.setDt_st (b : Byte) : (s.setDt b).st = s.st := rfl
@[simp] theorem State.setDt_fb (b : Byte) : (s.setDt b).fb = s.fb := rfl
@[simp] theorem State.setDt_drawFlag (b : Byte) : (s.setDt b).drawFlag = s.drawFlag := rfl
@[simp] theorem State.setDt_keys (b : Byte) : (s.setDt b).keys = s.keys := rfl
@[simp] theorem State.setDt_waiting (b : Byte) : (s.setDt b).waiting = s.waiting := rfl
@[simp] theorem State.setDt_keyValue (b : Byte) : (s.setDt b).keyValue = s.keyValue := rfl
@[simp] theorem State.setDt_keyNotify (b : Byte) : (s.setDt b).keyNotify = s.keyNotify := rfl
@[simp] theorem State.setDt_fault (b : Byte) : (s.setDt b).fault = s.fault := rfl
@[simp] theorem State.setDt_rndIn (b : Byte) : (s.setDt b).rndIn = s.rndIn := rfl
@[simp] theorem State.setDt_draws (b : Byte) : (s.setDt b).draws = s.draws := rfl

/-! ### `setSt` -/

@[simp] theorem State.setSt_mem (b : Byte) : (s.setSt b).mem = s.mem := rfl
@[simp] theorem State.setSt_v (b : Byte) : (s.setSt b).v = s.v := rfl
@[simp] theorem State.setSt_idx (b : Byte) : (s.setSt b).idx = s.idx := rfl
@[simp] theorem State.setSt_pc (b : Byte) : (s.setSt b).pc = s.pc := rfl
@[simp] theorem State.setSt_stack (b : Byte) : (s.setSt b).stack = s.stack := rfl
@[simp] theorem State.setSt_sp (b : Byte) : (s.setSt b).sp = s.sp := rfl
@[simp] theorem State.setSt_dt (b : Byte) : (s.setSt b).dt = s.dt := rfl
@[simp] theorem State.setSt_st (b : Byte) : (s.setSt b).st = b := rfl
@[simp] theorem State.setSt_fb (b : Byte) : (s.setSt b).fb = s.fb := rfl
@[simp] theorem State.setSt_drawFlag (b : Byte) : (s.setSt b).drawFlag = s.drawFlag := rfl
@[simp] theorem State.setSt_keys (b : Byte) : (s.setSt b).keys = s.keys := rfl
@[simp] theorem State.setSt_waiting (b : Byte) : (s.setSt b).waiting = s.waiting := rfl
@[simp] theorem State.setSt_keyValue (b : Byte) : (s.setSt b).keyValue = s.keyValue := rfl
@[simp] theorem State.setSt_keyNotify (b : Byte) : (s.setSt b).keyNotify = s.keyNotify := rfl
@[simp] theorem State.setSt_fault (b : Byte) : (s.setSt b).fault = s.fault := rfl
@[simp] theorem State.setSt_rndIn (b : Byte) : (s.setSt b).rndIn = s.rndIn := rfl
@[simp] theorem State.setSt_draws (b : Byte) : (s.setSt b).draws = s.draws := rfl

/-! ### `timerDecay` -/

@[simp] theorem State.timerDecay_mem : (s.timerDecay).mem = s.mem := rfl
@[simp] theorem State.timerDecay_v : (s.timerDecay).v = s.v := rfl
@[simp] theorem State.timerDecay_idx : (s.timerDecay).idx = s.idx := rfl
@[simp] theorem State.timerDecay_pc : (s.timerDecay).pc = s.pc := rfl
@[simp] theorem State.timerDecay_stack : (s.timerDecay).stack = s.stack := rfl
@[simp] theorem State.timerDecay_sp : (s.timerDecay).sp = s.sp := rfl
@[simp] theorem State.timerDecay_dt : (s.timerDecay).dt = countDown s.dt := rfl
@[simp] theorem State.timerDecay_st : (s.timerDecay).st = countDown s.st := rfl
@[simp] theorem State.timerDecay_fb : (s.timerDecay).fb = s.fb := rfl
@[simp] theorem State.timerDecay_drawFlag : (s.timerDecay).drawFlag = s.drawFlag := rfl
@[simp] theorem State.timerDecay_keys : (s.timerDecay).keys = s.keys := rfl
@[simp] theorem State.timerDecay_waiting : (s.timerDecay).waiting = s.waiting := rfl
@[simp] theorem State.timerDecay_keyValue : (s.timerDecay).keyValue = s.keyValue := rfl
@[simp] theorem State.timerDecay_keyNotify : (s.timerDecay).keyNotify = s.keyNotify := rfl
@[simp] theorem State.timerDecay_fault : (s.timerDecay).fault = s.fault := rfl
@[simp] theorem State.timerDecay_rndIn : (s.timerDecay).rndIn = s.rndIn := rfl
@[simp] theorem State.timerDecay_draws : (s.timerDecay).draws = s.draws := rfl

/-! ### `drawUsed` -/

@[simp] theorem State.drawUsed_mem : (s.drawUsed).mem = s.mem := rfl
@[simp] theorem State.drawUsed_v : (s.drawUsed).v = s.v := rfl
@[simp] theorem State.drawUsed_idx : (s.drawUsed).idx = s.idx := rfl
@[simp] theorem State.drawUsed_pc : (s.drawUsed).pc = s.pc := rfl
@[simp] theorem State.drawUsed_stack : (s.drawUsed).stack = s.stack := rfl
@[simp] theorem State.drawUsed_sp : (s.drawUsed).sp = s.sp := rfl
@[simp] theorem State.drawUsed_dt : (s.drawUsed).dt = s.dt := rfl
@[simp] theorem State.drawUsed_st : (s.drawUsed).st = s.st := rfl
@[simp] theorem State.drawUsed_fb : (s.drawUsed).fb = s.fb := rfl
@[simp] theorem State.drawUsed_drawFlag : (s.drawUsed).drawFlag = s.drawFlag := rfl
@[simp] theorem State.drawUsed_keys : (s.drawUsed).keys = s.keys := rfl
@[simp] theorem State.drawUsed_waiting : (s.drawUsed).waiting = s.waiting := rfl
@[simp] theorem State.drawUsed_keyValue : (s.drawUsed).keyValue = s.keyValue := rfl
@[simp] theorem State.drawUsed_keyNotify : (s.drawUsed).keyNotify = s.keyNotify := rfl
@[simp] theorem State.drawUsed_fault : (s.drawUsed).fault = s.fault := rfl
@[simp] theorem State.drawUsed_rndIn : (s.drawUsed).rndIn = s.rndIn.tail := rfl
@[simp] theorem State.drawUsed_draws : (s.drawUsed).draws = s.draws + 1 := rfl

/-! ### `awaitKey` -/

@[simp] theorem State.awaitKey_mem : (s.awaitKey).mem = s.mem := rfl
@[simp] theorem State.awaitKey_v : (s.awaitKey).v = s.v := rfl
@[simp] theorem State.awaitKey_idx : (s.awaitKey).idx = s.idx := rfl
@[simp] theorem State.awaitKey_pc : (s.awaitKey).pc = s.pc := rfl
@[simp] theorem State.awaitKey_stack : (s.awaitKey).stack = s.stack := rfl
@[simp] theorem State.awaitKey_sp : (s.awaitKey).sp = s.sp := rfl
@[simp] theorem State.awaitKey_dt : (s.awaitKey).dt = s.dt := rfl
@[simp] theorem State.awaitKey_st : (s.awaitKey).st = s.st := rfl
@[simp] theorem State.awaitKey_fb : (s.awaitKey).fb = s.fb := rfl
@[simp] theorem State.awaitKey_drawFlag : (s.awaitKey).drawFlag = s.drawFlag := rfl
@[simp] theorem State.awaitKey_keys : (s.awaitKey).keys = s.keys := rfl
@[simp] theorem State.awaitKey_waiting : (s.awaitKey).waiting = true := rfl
@[simp] theorem State.awaitKey_keyValue : (s.awaitKey).keyValue = s.keyValue := rfl
@[simp] theorem State.awaitKey_keyNotify : (s.awaitKey).keyNotify = s.keyNotify := rfl
@[simp] theorem State.awaitKey_fault : (s.awaitKey).fault = s.fault := rfl
@[simp] theorem State.awaitKey_rndIn : (s.awaitKey).rndIn = s.rndIn := rfl
@[simp] theorem State.awaitKey_draws : (s.awaitKey).draws = s.draws := rfl

/-! ### `idle` -/

@[simp] theorem State.idle_mem : (s.idle).mem = s.mem := rfl
@[simp] theorem State.idle_v : (s.idle).v = s.v := rfl
@[simp] theorem State.idle_idx : (s.idle).idx = s.idx := rfl
@[simp] theorem State.idle_pc : (s.idle).pc = s.pc := rfl
@[simp] theorem State.idle_stack : (s.idle).stack = s.stack := rfl
@[simp] theorem State.idle_sp : (s.idle).sp = s.sp := rfl
@[simp] theorem State.idle_dt : (s.idle).dt = s.dt := rfl
@[simp] theorem State.idle_st : (s.idle).st = s.st := rfl
@[simp] theorem State.idle_fb : (s.idle).fb = s.fb := rfl
@[simp] theorem State.idle_drawFlag : (s.idle).drawFlag = s.drawFlag := rfl
@[simp] theorem State.idle_keys : (s.idle).keys = s.keys := rfl
@[simp] theorem State.idle_waiting : (s.idle).waiting = false := rfl
@[simp] theorem State.idle_keyValue : (s.idle).keyValue = s.keyValue := rfl
@[simp] theorem State.idle_keyNotify : (s.idle).keyNotify = false := rfl
@[simp] theorem State.idle_fault : (s.idle).fault = s.fault := rfl
@[simp] theorem State.idle_rndIn : (s.idle).rndIn = s.rndIn := rfl
@[simp] theorem State.idle_draws : (s.idle).draws = s.draws := rfl

/-! ### `raise` -/

@[simp] theorem State.raise_mem (f : Fault) : (s.raise f).mem = s.mem := rfl
@[simp] theorem State.raise_v (f : Fault) : (s.raise f).v = s.v := rfl
@[simp] theorem State.raise_idx (f : Fault) : (s.raise f).idx = s.idx := rfl
@[simp] theorem State.raise_pc (f : Fault) : (s.raise f).pc = s.pc := rfl
@[simp] theorem State.raise_stack (f : Fault) : (s.raise f).stack = s.stack := rfl
@[simp] theorem State.raise_sp (f : Fault) : (s.raise f).sp = s.sp := rfl
@[simp] theorem State.raise_dt (f : Fault) : (s.raise f).dt = s.dt := rfl
@[simp] theorem State.raise_st (f : Fault) : (s.raise f).st = s.st := rfl
@[simp] theorem State.raise_fb (f : Fault) : (s.raise f).fb = s.fb := rfl
@[simp] theorem State.raise_drawFlag (f : Fault) : (s.raise f).drawFlag = s.drawFlag := rfl
@[simp] theorem State.raise_keys (f : Fault) : (s.raise f).keys = s.keys := rfl
@[simp] theorem State.raise_waiting (f : Fault) : (s.raise f).waiting = s.waiting := rfl
@[simp] theorem State.raise_keyValue (f : Fault) : (s.raise f).keyValue = s.keyValue := rfl
@[simp] theorem State.raise_keyNotify (f : Fault) : (s.raise f).keyNotify = s.keyNotify := rfl
@[simp] theorem State.raise_fault (f : Fault) : (s.raise f).fault = (s.fault <|> some f) := rfl
@[simp] theorem State.raise_rndIn (f : Fault) : (s.raise f).rndIn = s.rndIn := rfl
@[simp] theorem State.raise_draws (f : Fault) : (s.raise f).draws = s.draws := rfl

/-! ### Derived reads: a register or a key is read from its own field only -/

theorem State.reg_congr {s t : State} (h : t.v = s.v) (r : Reg) : t.reg r = s.reg r := by simp only [State.reg, h]

theorem State.memRead_congr {s t : State} (h : t.mem = s.mem) (a : Nat) : t.memRead a = s.memRead a := by
  simp only [State.memRead, h]

theorem State.key_congr {s t : State} (h : t.keys = s.keys) (k : Fin 16) : t.key k = s.key k := by
  simp only [State.key, h]

@[simp] theorem State.setIdx_reg (w : Word) (r : Reg) : (s.setIdx w).reg r = s.reg r := rfl
@[simp] theorem State.jump_reg (w : Word) (r : Reg) : (s.jump w).reg r = s.reg r := rfl
@[simp] theorem State.advance_reg (r : Reg) : (s.advance).reg r = s.reg r := rfl
@[simp] theorem State.skip_reg (c : Bool) (r : Reg) : (s.skip c).reg r = s.reg r := rfl
@[simp] theorem State.setScreen_reg (f : Screen) (r : Reg) : (s.setScreen f).reg r = s.reg r := rfl
@[simp] theorem State.setDt_reg (b : Byte) (r : Reg) : (s.setDt b).reg r = s.reg r := rfl
@[simp] theorem State.setSt_reg (b : Byte) (r : Reg) : (s.setSt b).reg r = s.reg r := rfl
@[simp] theorem State.timerDecay_reg (r : Reg) : (s.timerDecay).reg r = s.reg r := rfl
@[simp] theorem State.drawUsed_reg (r : Reg) : (s.drawUsed).reg r = s.reg r := rfl
@[simp] theorem State.awaitKey_reg (r : Reg) : (s.awaitKey).reg r = s.reg r := rfl
@[simp] theorem State.idle_reg (r : Reg) : (s.idle).reg r = s.reg r := rfl
@[simp] theorem State.raise_reg (f : Fault) (r : Reg) : (s.raise f).reg r = s.reg r := rfl

end Sys2Proof.Machine
end

