-- ==== Sys2Proof/Laws/Registers.lean ====
section
/-! SUPPORT. The laws of the register file, the call stack and the key index. -/

namespace Sys2Proof.Machine

-- one theorem at a time: each theorem elaborated beside others holds a thread's stack, and memory is limited
set_option Elab.async false

/-- A register reads what was last written to it; a write leaves every other register alone (R11). -/
@[simp] theorem State.reg_setReg (s : State) (r q : Reg) (b : Byte) :
    (s.setReg r b).reg q = if q = r then b else s.reg q := by
  simp only [State.reg, State.setReg, Vector.getElem_set, Fin.ext_iff, eq_comm]

/-- The register file after a block load of `bs` from register `k` upward. -/
def regsLoaded (v : Vector Byte 16) : Nat → List Byte → Vector Byte 16
  | _, [] => v
  | k, b :: bs => regsLoaded (if h : k < 16 then v.set k b else v) (k + 1) bs

/-- A block load writes the register file, reading nothing else of the state, and nothing else. -/
theorem State.setRegsFrom_eq (s : State) (k : Nat) (bs : List Byte) :
    s.setRegsFrom k bs = { s with v := regsLoaded s.v k bs } := by
  induction bs generalizing s k with
  | nil => rfl
  | cons b bs ih =>
    simp only [State.setRegsFrom, regsLoaded]
    split
    · rw [ih]; rfl
    · exact ih s (k + 1)

/-- A block load writes exactly the registers `k` to `k + bs.length − 1`. -/
theorem State.reg_setRegsFrom (s : State) (k : Nat) (bs : List Byte) (q : Reg) :
    (s.setRegsFrom k bs).reg q =
      if h : k ≤ q.val ∧ q.val < k + bs.length then bs[q.val - k]'(by omega) else s.reg q := by
  induction bs generalizing s k with
  | nil => rw [dif_neg (by simp only [List.length_nil]; omega)]; rfl
  | cons b bs ih =>
    simp only [State.setRegsFrom, ih, List.length_cons]
    by_cases h1 : k + 1 ≤ q.val ∧ q.val < k + 1 + bs.length
    · have h3 : q.val - k = (q.val - (k + 1)) + 1 := by omega
      rw [dif_pos h1, dif_pos (by omega)]
      simp only [h3, List.getElem_cons_succ]
    · rw [dif_neg h1]
      by_cases h2 : q.val = k
      · have hk : k < 16 := h2 ▸ q.isLt
        rw [dif_pos hk, dif_pos (by omega), State.reg_setReg, if_pos (Fin.ext h2)]
        simp [h2]
      · rw [dif_neg (show ¬(k ≤ q.val ∧ q.val < k + (bs.length + 1)) by omega)]
        split
        · rw [State.reg_setReg, if_neg (fun h => h2 (by rw [h]))]
        · rfl

@[simp] theorem State.length_firstRegs (s : State) (n : Nat) : (s.firstRegs n).length = min n 16 := by
  simp [State.firstRegs]

theorem State.getElem_firstRegs (s : State) (n k : Nat) (h : k < (s.firstRegs n).length) :
    (s.firstRegs n)[k] = s.reg ⟨k, by simp only [State.length_firstRegs] at h; omega⟩ := by
  simp [State.firstRegs, State.reg]

/-! ### The call stack -/

/-- Everything a push can do (R15). -/
theorem State.push_eq (s : State) (w : Word) :
    (s.sp.val = 16 ∧ s.push w = none) ∨
    ∃ h : s.sp.val < 16,
      s.push w = some { s with stack := s.stack.set s.sp.val w, sp := ⟨s.sp.val + 1, by omega⟩ } := by
  by_cases h : s.sp.val < 16
  · exact .inr ⟨h, by simp [State.push, h]⟩
  · exact .inl ⟨by omega, by simp [State.push, h]⟩

/-- Everything a pop can do (R15). -/
theorem State.pop_eq (s : State) :
    (s.sp.val = 0 ∧ s.pop = none) ∨
    ∃ h : 0 < s.sp.val,
      s.pop = some (s.stack[s.sp.val - 1]'(by omega), { s with sp := ⟨s.sp.val - 1, by omega⟩ }) := by
  by_cases h : 0 < s.sp.val
  · exact .inr ⟨h, by simp [State.pop, h]⟩
  · exact .inl ⟨by omega, by simp [State.pop, h]⟩

end Sys2Proof.Machine
end

