-- ==== Sys2Proof/Laws/Screen.lean ====
section
/-! SUPPORT. The laws of the screen: one pixel, and what drawing a whole sprite can do. -/

namespace Sys2Proof.Machine

-- one theorem at a time: each theorem elaborated beside others holds a thread's stack, and memory is limited
set_option Elab.async false

/-- Flipping a pixel changes that pixel and no other. -/
@[simp] theorem Screen.pixel_flip (f : Screen) (px qx : Fin 64) (py qy : Fin 32) :
    (f.flip px py).pixel qx qy = (f.pixel qx qy ^^ decide (qx = px ∧ qy = py)) := by
  simp only [Screen.pixel, Screen.flip, Vector.getElem_set, Fin.ext_iff]
  by_cases hy : py.val = qy.val
  · simp [hy, eq_comm]
  · simp [hy, Ne.symm hy]

@[simp] theorem Screen.pixel_clear (px : Fin 64) (py : Fin 32) : Screen.clear.pixel px py = false := by
  simp [Screen.clear, Screen.pixel]

/-- Cell `px + py*64` is the pixel at column `px` and row `py` (R17). -/
theorem Screen.cell_eq_pixel (f : Screen) (px : Fin 64) (py : Fin 32) :
    f.cell ⟨px.val + py.val * 64, by omega⟩ = f.pixel px py := by
  have h1 : (px.val + py.val * 64) % 64 = px.val := by omega
  have h2 : (px.val + py.val * 64) / 64 = py.val := by omega
  simp only [Screen.cell, h1, h2]

/-- Columns `c` and `c'` of one sprite are the same column of the screen only if they are equal (R101 b). -/
theorem column_injective {vx : Byte} {c c' : Nat} (hc : c < 64) (hc' : c' < 64) (h : column vx c = column vx c') :
    c = c' := by
  simp only [column, Fin.mk.injEq] at h; omega

/-- Rows `r` and `r'` of one sprite are the same row of the screen only if they are equal (R101 b). -/
theorem row_injective {vy : Byte} {r r' : Nat} (hr : r < 32) (hr' : r' < 32) (h : row vy r = row vy r') : r = r' := by
  simp only [row, Fin.mk.injEq] at h; omega

/-! ### A whole sprite -/

/-- The pixels under the set bits of row `r` of a sprite at `(vx, vy)`, leftmost first (R101, R102). -/
def rowPixels (vx vy : Byte) (r : Nat) (bits : Byte) : List (Fin 64 × Fin 32) :=
  ((List.range 8).filter fun c => bits.getLsbD (7 - c)).map fun c => (column vx c, row vy r)

/-- The pixels under the set bits of a sprite's rows, the first of them row `r`. -/
def spritePixels (vx vy : Byte) : Nat → List Byte → List (Fin 64 × Fin 32)
  | _, [] => []
  | r, bits :: rest => rowPixels vx vy r bits ++ spritePixels vx vy (r + 1) rest

/-- A sprite is drawn by plotting its pixels one after another. -/
theorem drawRows_eq_foldl (vx vy : Byte) (r : Nat) (rows : List Byte) (acc : Screen × Bool) :
    drawRows vx vy r rows acc = (spritePixels vx vy r rows).foldl (fun acc p => plot acc p.1 p.2) acc := by
  induction rows generalizing r acc with
  | nil => rfl
  | cons bits rest ih =>
    rw [drawRows, ih, spritePixels, List.foldl_append, rowPixels, List.foldl_map, List.foldl_filter]
    rfl

theorem mem_spritePixels {vx vy : Byte} {r : Nat} {rows : List Byte} {p : Fin 64 × Fin 32} :
    p ∈ spritePixels vx vy r rows ↔
      ∃ k c : Nat, ∃ h : k < rows.length, c < 8 ∧ rows[k].getLsbD (7 - c) = true ∧
        p = (column vx c, row vy (r + k)) := by
  induction rows generalizing r with
  | nil => simp [spritePixels]
  | cons bits rest ih =>
    simp only [spritePixels, List.mem_append, ih, rowPixels, List.mem_map, List.mem_filter, List.mem_range]
    constructor
    · rintro (⟨c, ⟨hc, hb⟩, rfl⟩ | ⟨k, c, hk, hc, hb, rfl⟩)
      · exact ⟨0, c, by simp, hc, hb, rfl⟩
      · exact ⟨k + 1, c, by simpa using hk, hc, hb, by rw [Nat.add_assoc, Nat.add_comm 1 k]⟩
    · rintro ⟨k, c, hk, hc, hb, rfl⟩
      cases k with
      | zero => exact .inl ⟨c, ⟨hc, hb⟩, rfl⟩
      | succ k => exact .inr ⟨k, c, by simpa using hk, hc, hb, by rw [Nat.add_assoc, Nat.add_comm 1 k]⟩

/-- No two set bits of a sprite of fewer than 32 rows fall on one pixel (R101 b). -/
theorem spritePixels_nodup (vx vy : Byte) (r : Nat) (rows : List Byte) (h : r + rows.length ≤ 32) :
    (spritePixels vx vy r rows).Nodup := by
  induction rows generalizing r with
  | nil => simp [spritePixels]
  | cons bits rest ih =>
    simp only [List.length_cons] at h
    rw [spritePixels, List.nodup_append]
    refine ⟨?_, ih (r + 1) (by omega), ?_⟩
    · refine List.Nodup.map_on ?_ (List.nodup_range.filter _)
      intro c hc c' hc' he
      simp only [List.mem_filter, List.mem_range] at hc hc'
      exact column_injective (by omega) (by omega) (Prod.ext_iff.mp he).1
    · intro p hp q hq he
      obtain ⟨c, -, rfl⟩ := List.mem_map.mp hp
      obtain ⟨k, c', hk, -, -, rfl⟩ := mem_spritePixels.mp hq
      have := row_injective (by omega) (by omega) (Prod.ext_iff.mp he).2
      omega

/-- Plotting distinct pixels flips each of them and no other. -/
theorem pixel_foldl_plot (ps : List (Fin 64 × Fin 32)) (acc : Screen × Bool) (h : ps.Nodup) (px : Fin 64)
    (py : Fin 32) :
    (ps.foldl (fun acc p => plot acc p.1 p.2) acc).1.pixel px py =
      (acc.1.pixel px py ^^ decide ((px, py) ∈ ps)) := by
  induction ps generalizing acc with
  | nil => simp
  | cons p ps ih =>
    obtain ⟨hp, hs⟩ := List.nodup_cons.mp h
    rw [List.foldl_cons, ih _ hs, plot, Screen.pixel_flip]
    by_cases he : (px, py) = p
    · subst he; simp [hp]
    · simp [he, show ¬(px = p.1 ∧ py = p.2) from fun ⟨a, b⟩ => he (Prod.ext a b)]

/-- Plotting distinct pixels finds a collision exactly if one of them was set. -/
theorem collision_foldl_plot (ps : List (Fin 64 × Fin 32)) (acc : Screen × Bool) (h : ps.Nodup) :
    (ps.foldl (fun acc p => plot acc p.1 p.2) acc).2 = (acc.2 || ps.any fun p => acc.1.pixel p.1 p.2) := by
  induction ps generalizing acc with
  | nil => simp
  | cons p ps ih =>
    obtain ⟨hp, hs⟩ := List.nodup_cons.mp h
    rw [List.foldl_cons, ih _ hs, List.any_cons, ← Bool.or_assoc, plot]
    congr 1
    rw [Bool.eq_iff_iff]
    simp only [List.any_eq_true, Screen.pixel_flip]
    refine exists_congr fun q => and_congr_right fun hq => ?_
    have : ¬(q.1 = p.1 ∧ q.2 = p.2) := fun ⟨a, b⟩ => hp (Prod.ext a b ▸ hq)
    simp [this]

/-- What drawing a sprite of at most 32 rows does to each pixel (R101). -/
theorem pixel_drawRows (vx vy : Byte) (rows : List Byte) (f : Screen) (b : Bool) (h : rows.length ≤ 32) (px : Fin 64)
    (py : Fin 32) :
    (drawRows vx vy 0 rows (f, b)).1.pixel px py =
      (f.pixel px py ^^ decide ((px, py) ∈ spritePixels vx vy 0 rows)) := by
  rw [drawRows_eq_foldl, pixel_foldl_plot _ _ (spritePixels_nodup vx vy 0 rows (by omega))]

/-- When drawing a sprite of at most 32 rows finds a collision (R101). -/
theorem collision_drawRows (vx vy : Byte) (rows : List Byte) (f : Screen) (h : rows.length ≤ 32) :
    (drawRows vx vy 0 rows (f, false)).2 = (spritePixels vx vy 0 rows).any fun p => f.pixel p.1 p.2 := by
  rw [drawRows_eq_foldl, collision_foldl_plot _ _ (spritePixels_nodup vx vy 0 rows (by omega)), Bool.false_or]

end Sys2Proof.Machine
end

