-- ==== Sys2Proof/Laws/Memory.lean ====
section
/-! SUPPORT. The laws of memory: a read after a write, the canonical form, and what the multi-byte accesses can do. -/

namespace Sys2Proof.Machine

-- one theorem at a time: each theorem elaborated beside others holds a thread's stack, and memory is limited
set_option Elab.async false

/-! ### Read after write -/

theorem Memory.read_erase (m : Memory) (a b : Nat) :
    Memory.read (Memory.erase m a) b = if b = a then Memory.blank a else Memory.read m b := by
  induction m with
  | nil => by_cases h : b = a <;> simp [Memory.erase, Memory.read, h]
  | cons c m ih =>
    obtain ⟨k, v⟩ := c
    simp only [Memory.erase] at ih
    by_cases hk : k = a
    · subst hk
      simp only [Memory.erase, List.filter_cons, ne_eq, not_true_eq_false, decide_false, Bool.false_eq_true, if_false,
        ih, Memory.read]
      by_cases h : b = k <;> simp [h]
    · simp only [Memory.erase, List.filter_cons, ne_eq, hk, not_false_eq_true, decide_true, if_true, Memory.read, ih]
      by_cases h : b = a
      · simp [h, Ne.symm hk]
      · simp [h]

theorem Memory.read_insert (m : Memory) (a b : Nat) (v : Byte) (hm : ∀ c ∈ m, c.1 ≠ a) :
    Memory.read (Memory.insert m a v) b = if b = a then v else Memory.read m b := by
  induction m with
  | nil => simp [Memory.insert, Memory.read]
  | cons c m ih =>
    obtain ⟨k, w⟩ := c
    have hk : k ≠ a := hm (k, w) (by simp)
    by_cases h : a < k
    · simp [Memory.insert, Memory.read, h]
    · simp only [Memory.insert, h, if_false, Memory.read, ih fun c hc => hm c (by simp [hc])]
      by_cases hb : b = a
      · simp [hb, Ne.symm hk]
      · simp [hb]

/-- A read after a write to the same place gives the value written; a write leaves every other place alone (R42, R50,
R52). -/
@[simp] theorem Memory.read_write (m : Memory) (a b : Nat) (v : Byte) :
    Memory.read (Memory.write m a v) b = if b = a then v else Memory.read m b := by
  unfold Memory.write
  split
  · next h => rw [Memory.read_erase, h]
  · rw [Memory.read_insert _ _ _ _ (by simp [Memory.erase]), Memory.read_erase]
    split <;> rfl

/-! ### The canonical form -/

theorem Memory.wfFrom_mono {m : Memory} {lo lo' : Nat} (hl : lo' ≤ lo) (h : Memory.wfFrom lo m = true) :
    Memory.wfFrom lo' m = true := by
  cases m with
  | nil => rfl
  | cons c m =>
    obtain ⟨k, v⟩ := c
    simp only [Memory.wfFrom, Bool.and_eq_true, decide_eq_true_eq] at h ⊢
    exact ⟨⟨⟨by omega, h.1.1.2⟩, h.1.2⟩, h.2⟩

theorem Memory.wfFrom_erase {m : Memory} {lo : Nat} (a : Nat) (h : Memory.wfFrom lo m = true) :
    Memory.wfFrom lo (Memory.erase m a) = true := by
  induction m generalizing lo with
  | nil => rfl
  | cons c m ih =>
    obtain ⟨k, v⟩ := c
    simp only [Memory.wfFrom, Bool.and_eq_true, decide_eq_true_eq] at h
    have hm := ih h.2
    simp only [Memory.erase] at hm
    by_cases hk : k = a
    · simp only [Memory.erase, List.filter_cons, ne_eq, hk, not_true_eq_false, decide_false, Bool.false_eq_true,
        if_false]
      exact Memory.wfFrom_mono (by omega) hm
    · simp only [Memory.erase, List.filter_cons, ne_eq, hk, not_false_eq_true, decide_true, if_true, Memory.wfFrom,
        Bool.and_eq_true, decide_eq_true_eq]
      exact ⟨h.1, hm⟩

theorem Memory.wfFrom_insert {m : Memory} {lo a : Nat} {v : Byte} (ha : a < Config.memSize) (hl : lo ≤ a)
    (hv : v ≠ Memory.blank a) (hm : ∀ c ∈ m, c.1 ≠ a) (h : Memory.wfFrom lo m = true) :
    Memory.wfFrom lo (Memory.insert m a v) = true := by
  induction m generalizing lo with
  | nil => simp [Memory.insert, Memory.wfFrom, hl, ha, hv]
  | cons c m ih =>
    obtain ⟨k, w⟩ := c
    have hk : k ≠ a := hm (k, w) (by simp)
    simp only [Memory.wfFrom, Bool.and_eq_true, decide_eq_true_eq] at h
    unfold Memory.insert
    split
    · next hlt =>
      simp only [Memory.wfFrom, Bool.and_eq_true, decide_eq_true_eq]
      exact ⟨⟨⟨hl, ha⟩, hv⟩, ⟨⟨by omega, h.1.1.2⟩, h.1.2⟩, h.2⟩
    · next hge =>
      simp only [Memory.wfFrom, Bool.and_eq_true, decide_eq_true_eq]
      exact ⟨h.1, ih (by omega) (fun c hc => hm c (by simp [hc])) h.2⟩

/-- A write to an address of the memory keeps the canonical form. -/
theorem Memory.wf_write {m : Memory} {a : Nat} (v : Byte) (ha : a < Config.memSize) (h : Memory.wf m = true) :
    Memory.wf (Memory.write m a v) = true := by
  unfold Memory.write Memory.wf
  split
  · exact Memory.wfFrom_erase a h
  · next hv => exact Memory.wfFrom_insert ha (Nat.zero_le _) hv (by simp [Memory.erase]) (Memory.wfFrom_erase a h)

/-- The memory after reset has the canonical form. -/
theorem State.reset_mem_wf : Memory.wf State.reset.mem = true := rfl

/-! ### One access -/

theorem State.memRead_ok {s : State} {a : Nat} {b : Byte} :
    s.memRead a = .ok b ↔ a < 0x1000 ∧ Memory.read s.mem a = b := by
  unfold State.memRead Config.memSize; split <;> simp <;> omega

theorem State.memRead_inBounds {s : State} {a : Nat} (h : a < 0x1000) : s.memRead a = .ok (Memory.read s.mem a) :=
  State.memRead_ok.2 ⟨h, rfl⟩

theorem State.memRead_outOfBounds {s : State} {a : Nat} (h : 0x1000 ≤ a) : s.memRead a = .error (.memOutOfBounds a) := by
  unfold State.memRead Config.memSize; simp [h]

theorem State.memWrite_inBounds {s : State} {a : Nat} (v : Byte) (h : a < 0x1000) :
    s.memWrite a v = .ok { s with mem := Memory.write s.mem a v } := by
  unfold State.memWrite Config.memSize; simp; omega

theorem State.memWrite_outOfBounds {s : State} {a : Nat} (v : Byte) (h : 0x1000 ≤ a) :
    s.memWrite a v = .error (.memOutOfBounds a) := by
  unfold State.memWrite Config.memSize; simp [h]

/-! ### Several accesses in ascending order (R43, R55) -/

/-- All in bounds: the bytes; else the first out-of-bounds address, `max(base, 0x1000)`. -/
theorem State.readBytes_eq (s : State) (a n : Nat) :
    s.readBytes a n =
      if n = 0 ∨ a + n ≤ 0x1000 then .ok ((List.range' a n).map fun k => Memory.read s.mem k)
      else .error (.memOutOfBounds (max a 0x1000)) := by
  induction n generalizing a with
  | zero => simp [State.readBytes]
  | succ n ih =>
    unfold State.readBytes
    by_cases ha : a < 0x1000
    · rw [State.memRead_inBounds ha]
      simp only [ih]
      by_cases hn : n = 0 ∨ a + 1 + n ≤ 0x1000
      · rw [if_pos hn, if_pos (by omega)]; simp [List.range'_succ]
      · have : ¬(n + 1 = 0 ∨ a + (n + 1) ≤ 0x1000) := by omega
        simp only [hn, this, if_false]
        congr 2; omega
    · rw [State.memRead_outOfBounds (by omega)]
      have : ¬(n + 1 = 0 ∨ a + (n + 1) ≤ 0x1000) := by omega
      simp only [this, if_false]
      congr 2; omega

/-- The memory with `bs` written from `a` upward. -/
def Memory.writeAll : Memory → Nat → List Byte → Memory
  | m, _, [] => m
  | m, a, b :: bs => Memory.writeAll (Memory.write m a b) (a + 1) bs

/-- Exactly the bytes `a` to `a + bs.length − 1` take the values written. -/
theorem Memory.read_writeAll (m : Memory) (a : Nat) (bs : List Byte) (k : Nat) :
    Memory.read (Memory.writeAll m a bs) k =
      if h : a ≤ k ∧ k < a + bs.length then bs[k - a]'(by omega) else Memory.read m k := by
  induction bs generalizing m a with
  | nil => simp [Memory.writeAll]
  | cons b bs ih =>
    simp only [Memory.writeAll, ih, Memory.read_write, List.length_cons]
    by_cases h1 : a + 1 ≤ k ∧ k < a + 1 + bs.length
    · have h2 : a ≤ k ∧ k < a + (bs.length + 1) := by omega
      have h3 : k - a = (k - (a + 1)) + 1 := by omega
      simp [h1, h2, h3]
    · by_cases h2 : k = a
      · subst h2; simp
      · have h3 : ¬(a ≤ k ∧ k < a + (bs.length + 1)) := by omega
        rw [dif_neg h1, dif_neg h3, if_neg h2]

theorem Memory.wf_writeAll {m : Memory} {a : Nat} {bs : List Byte} (ha : a + bs.length ≤ 0x1000)
    (h : Memory.wf m = true) : Memory.wf (Memory.writeAll m a bs) = true := by
  induction bs generalizing m a with
  | nil => exact h
  | cons b bs ih =>
    simp only [List.length_cons] at ha
    exact ih (by omega) (Memory.wf_write b (show a < 0x1000 by omega) h)

/-- All in bounds: the state with the bytes written; else the first out-of-bounds address, `max(base, 0x1000)`. -/
theorem State.writeBytes_eq (s : State) (a : Nat) (bs : List Byte) :
    s.writeBytes a bs =
      if bs = [] ∨ a + bs.length ≤ 0x1000 then .ok { s with mem := Memory.writeAll s.mem a bs }
      else .error (.memOutOfBounds (max a 0x1000)) := by
  induction bs generalizing s a with
  | nil => simp [State.writeBytes, Memory.writeAll]
  | cons b bs ih =>
    unfold State.writeBytes
    by_cases ha : a < 0x1000
    · rw [State.memWrite_inBounds b ha]
      simp only [ih, List.length_cons]
      by_cases hn : bs = [] ∨ a + 1 + bs.length ≤ 0x1000
      · have : b :: bs = [] ∨ a + (bs.length + 1) ≤ 0x1000 := by
          rcases hn with h | h
          · subst h; right; simp; omega
          · right; omega
        rw [if_pos hn, if_pos this]; rfl
      · have : ¬(b :: bs = [] ∨ a + (bs.length + 1) ≤ 0x1000) := by
          simp only [List.cons_ne_nil, false_or]; intro h; exact hn (by right; omega)
        rw [if_neg hn, if_neg this]
        congr 2; omega
    · rw [State.memWrite_outOfBounds b (by omega)]
      have : ¬(b :: bs = [] ∨ a + (bs.length + 1) ≤ 0x1000) := by
        simp only [List.cons_ne_nil, false_or]; omega
      rw [List.length_cons, if_neg this]
      simp only; congr 2; omega

end Sys2Proof.Machine
end

