-- ==== Sys2Proof/Laws/Sequencer.lean ====
section
/-! SUPPORT. What a fetch, a commit and a step can do, each said once; the meaning of each arm of `exec` by name. -/

namespace Sys2Proof.Machine

-- one theorem at a time: each theorem elaborated beside others holds a thread's stack, and memory is limited
set_option Elab.async false

/-- Everything a fetch can do (R81). -/
theorem State.fetch_eq (s : State) :
    s.fetch =
      if s.pc.toNat + 1 < 0x1000 then
        .ok (wordOfBytes (Memory.read s.mem s.pc.toNat) (Memory.read s.mem (s.pc.toNat + 1)))
      else .error (.memOutOfBounds (max s.pc.toNat 0x1000)) := by
  unfold State.fetch
  by_cases h0 : s.pc.toNat < 0x1000
  · rw [State.memRead_inBounds h0]
    by_cases h1 : s.pc.toNat + 1 < 0x1000
    · rw [State.memRead_inBounds h1, if_pos h1]
    · rw [State.memRead_outOfBounds (by omega), if_neg h1]
      simp only; congr 2; omega
  · rw [State.memRead_outOfBounds (by omega), if_neg (by omega)]
    simp only; congr 2; omega

/-- Everything the end of an execute phase can do (R88). -/
theorem State.commit_eq_next {s t : State} {r : Except Fault State} :
    s.commit r = .next t ↔ r = .ok t ∨ ∃ f, r = .error f ∧ t = s.raise f := by
  cases r <;> simp [State.commit, eq_comm]

/-- Every execute phase answers a next state. -/
theorem State.commit_next (s : State) (r : Except Fault State) : ∃ t, s.commit r = .next t := by
  cases r <;> simp [State.commit]

/-- A latch that holds nothing takes the fault. -/
theorem State.raise_of_none {s : State} (f : Fault) (h : s.fault = none) : s.raise f = { s with fault := some f } := by
  simp [State.raise, h]

/-- Everything a step can do (R87, R81, R83, R90). -/
theorem step_cases {s t : State} (h : step s = .next t) :
    (s.fault ≠ none ∧ t = s) ∨
    (s.fault = none ∧ ∃ f, s.fetch = .error f ∧ t = s.raise f) ∨
    (s.fault = none ∧ ∃ w, s.fetch = .ok w ∧ decodeWord w = none ∧ t = s.raise (.illegalOpcode w)) ∨
    (s.fault = none ∧ ∃ w i u, s.fetch = .ok w ∧ decodeWord w = some i ∧ exec i s = .next u ∧
      t = endOfCycle i s u) := by
  unfold step cycle at h
  split at h
  · next hf => exact .inl ⟨by simp [hf], by simpa using h.symm⟩
  · next hf =>
    split at h
    · next f he => exact .inr (.inl ⟨hf, f, he, by simpa using h.symm⟩)
    · next w hw =>
      split at h
      · next hd => exact .inr (.inr (.inl ⟨hf, w, hw, hd, by simpa using h.symm⟩))
      · next i hd =>
        split at h
        · next u hu => exact .inr (.inr (.inr ⟨hf, w, i, u, hw, hd, hu, by simpa using h.symm⟩))
        · cases h
        · cases h

/-- The other direction, for a core that is not faulted and a word that decodes. -/
theorem step_of_decoded {s u : State} {w : Word} {i : Instr} (hf : s.fault = none) (hw : s.fetch = .ok w)
    (hd : decodeWord w = some i) (hu : exec i s = .next u) : step s = .next (endOfCycle i s u) := by
  unfold step cycle
  simp [hf, hw, hd, hu]

/-- Everything the end of a cycle can do: the state the execute phase reached, or that state after `TimerDecay`. -/
theorem endOfCycle_cases (i : Instr) (s u : State) : endOfCycle i s u = u ∨ endOfCycle i s u = u.timerDecay := by
  unfold endOfCycle; split
  · exact .inr rfl
  · exact .inl rfl

/-- The end of a cycle does not touch the fault latch. -/
@[simp] theorem endOfCycle_fault (i : Instr) (s u : State) : (endOfCycle i s u).fault = u.fault := by
  rcases endOfCycle_cases i s u with h | h <;> simp [h]

end Sys2Proof.Machine
end

