-- ==== Sys2Proof/Laws/Exec.lean ====
section
/-! SUPPORT. Everything the execute phase of each checking instruction can do, said once: the state it reaches, or the
fault it raises. The instructions without a check answer a next state by definition. -/

namespace Sys2Proof.Machine

-- one theorem at a time: each theorem elaborated beside others holds a thread's stack, and memory is limited
set_option Elab.async false

/-- R110. -/
theorem exec_ret_eq (s : State) :
    exec .ret s =
      if h : 0 < s.sp.val then
        .next { s with pc := s.stack[s.sp.val - 1]'(by omega), sp := ⟨s.sp.val - 1, by omega⟩ }
      else .next (s.raise (.stackUnderflow 0x00EE)) := by
  simp only [exec, execRet]
  rcases State.pop_eq s with ⟨h, e⟩ | ⟨h, e⟩
  · rw [e, dif_neg (by omega)]; rfl
  · rw [e, dif_pos h]; rfl

/-- R112. -/
theorem exec_call_eq (s : State) (nnn : BitVec 12) :
    exec (.call nnn) s =
      if h : s.sp.val < 16 then
        .next { s with
          pc := addressOf nnn
          stack := s.stack.set s.sp.val (s.pc + 2)
          sp := ⟨s.sp.val + 1, by omega⟩ }
      else .next (s.raise (.stackOverflow (wordNNN 0x2 nnn))) := by
  simp only [exec, execCall]
  rcases State.push_eq s (s.pc + 2) with ⟨h, e⟩ | ⟨h, e⟩
  · rw [e, dif_neg (by omega)]; rfl
  · rw [e, dif_pos h]; rfl

/-- R170. -/
theorem exec_skp_eq (s : State) (x : Reg) :
    exec (.skp x) s =
      if h : (s.reg x).toNat < 16 then .next (s.skip (s.key ⟨(s.reg x).toNat, h⟩))
      else .next (s.raise (.badKeyIndex (s.reg x))) := by
  simp only [exec, execSkp]
  rcases keyIndex_eq (s.reg x) with ⟨h, e⟩ | ⟨h, e⟩
  · rw [e, dif_pos h]; rfl
  · rw [e, dif_neg (by omega)]; rfl

/-- R171. -/
theorem exec_sknp_eq (s : State) (x : Reg) :
    exec (.sknp x) s =
      if h : (s.reg x).toNat < 16 then .next (s.skip (!s.key ⟨(s.reg x).toNat, h⟩))
      else .next (s.raise (.badKeyIndex (s.reg x))) := by
  simp only [exec, execSknp]
  rcases keyIndex_eq (s.reg x) with ⟨h, e⟩ | ⟨h, e⟩
  · rw [e, dif_pos h]; rfl
  · rw [e, dif_neg (by omega)]; rfl

/-- The bytes `I` to `I + n − 1`, as memory holds them. -/
def State.bytesAtIdx (s : State) (n : Nat) : List Byte :=
  (List.range' s.idx.toNat n).map fun k => Memory.read s.mem k

@[simp] theorem State.length_bytesAtIdx (s : State) (n : Nat) : (s.bytesAtIdx n).length = n := by
  simp [State.bytesAtIdx]

@[simp] theorem State.getElem_bytesAtIdx (s : State) (n k : Nat) (h : k < (s.bytesAtIdx n).length) :
    (s.bytesAtIdx n)[k] = Memory.read s.mem (s.idx.toNat + k) := by
  simp [State.bytesAtIdx]

/-- R101. -/
theorem exec_drw_eq (s : State) (x y : Reg) (n : BitVec 4) :
    exec (.drw x y n) s =
      if n.toNat = 0 ∨ s.idx.toNat + n.toNat ≤ 0x1000 then
        .next (s.drawSprite (s.reg x) (s.reg y) (s.bytesAtIdx n.toNat))
      else .next (s.raise (.memOutOfBounds (max s.idx.toNat 0x1000))) := by
  simp only [exec, execDrw, State.readBytes_eq, State.base]
  split <;> rfl

/-- R153. -/
theorem exec_storeBcd_eq (s : State) (x : Reg) :
    exec (.storeBcd x) s =
      if s.idx.toNat + 2 < 0x1000 then
        .next { s with mem := Memory.writeAll s.mem s.idx.toNat (decimalDigits (s.reg x)), pc := s.pc + 2 }
      else .next (s.raise (.memOutOfBounds (max s.idx.toNat 0x1000))) := by
  have hl := length_decimalDigits (s.reg x)
  have hne : decimalDigits (s.reg x) ≠ [] := List.cons_ne_nil _ _
  simp only [exec, execStoreBcd, State.writeBytes_eq, State.base]
  by_cases h : s.idx.toNat + 2 < 0x1000
  · rw [if_pos (.inr (by omega)), if_pos h]; rfl
  · rw [if_neg (by rintro (h' | h'); exacts [hne h', by omega]), if_neg h]; rfl

/-- R154. -/
theorem exec_storeRegs_eq (s : State) (x : Reg) :
    exec (.storeRegs x) s =
      if s.idx.toNat + x.val < 0x1000 then
        .next { s with mem := Memory.writeAll s.mem s.idx.toNat (s.firstRegs (regCount x)), pc := s.pc + 2 }
      else .next (s.raise (.memOutOfBounds (max s.idx.toNat 0x1000))) := by
  have hl : (s.firstRegs (regCount x)).length = x.val + 1 := by simp [regCount]
  have hne : s.firstRegs (regCount x) ≠ [] := fun h => by simp [h] at hl
  simp only [exec, execStoreRegs, State.writeBytes_eq, State.base]
  by_cases h : s.idx.toNat + x.val < 0x1000
  · rw [if_pos (.inr (by omega)), if_pos h]; rfl
  · rw [if_neg (by rintro (h' | h'); exacts [hne h', by omega]), if_neg h]; rfl

/-- R155. -/
theorem exec_loadRegs_eq (s : State) (x : Reg) :
    exec (.loadRegs x) s =
      if s.idx.toNat + x.val < 0x1000 then .next (s.setRegsFrom 0 (s.bytesAtIdx (regCount x))).advance
      else .next (s.raise (.memOutOfBounds (max s.idx.toNat 0x1000))) := by
  simp only [exec, execLoadRegs, State.readBytes_eq, State.base, regCount]
  by_cases h : s.idx.toNat + x.val < 0x1000
  · rw [if_pos (.inr (by omega)), if_pos h]; rfl
  · rw [if_neg (by omega), if_neg h]; rfl

/-- An execute phase raises a fault on the state it started from, or leaves the latch as it is (R88, R216). -/
theorem exec_raises_or_completes {i : Instr} {s t : State} (h : exec i s = .next t) :
    (∃ f, t = s.raise f) ∨ t.fault = s.fault := by
  cases i
  case ret => rw [exec_ret_eq] at h; split at h <;> cases h; exacts [.inr rfl, .inl ⟨_, rfl⟩]
  case call => rw [exec_call_eq] at h; split at h <;> cases h; exacts [.inr rfl, .inl ⟨_, rfl⟩]
  case skp => rw [exec_skp_eq] at h; split at h <;> cases h; exacts [.inr rfl, .inl ⟨_, rfl⟩]
  case sknp => rw [exec_sknp_eq] at h; split at h <;> cases h; exacts [.inr rfl, .inl ⟨_, rfl⟩]
  case drw => rw [exec_drw_eq] at h; split at h <;> cases h; exacts [.inr rfl, .inl ⟨_, rfl⟩]
  case storeBcd => rw [exec_storeBcd_eq] at h; split at h <;> cases h; exacts [.inr rfl, .inl ⟨_, rfl⟩]
  case storeRegs => rw [exec_storeRegs_eq] at h; split at h <;> cases h; exacts [.inr rfl, .inl ⟨_, rfl⟩]
  case loadRegs =>
    rw [exec_loadRegs_eq] at h; split at h <;> cases h
    exacts [.inr (by rw [State.setRegsFrom_eq]; rfl), .inl ⟨_, rfl⟩]
  case ldVxKey =>
    simp only [exec, execLdVxKey] at h
    repeat' split at h
    all_goals cases h; exact .inr rfl
  all_goals cases h; exact .inr rfl

/-- What the execute phase does to the core is settled by the core and, for `CXNN` alone, by the draw (R89, R92): with
another supply of draws that gives the same draw it reaches the same core. -/
theorem exec_core {i : Instr} {s s' t : State} (hc : s'.toCoreState = s.toCoreState)
    (hd : s'.draw = s.draw ∨ ∀ x nn, i ≠ .rnd x nn) (h : exec i s = .next t) :
    ∃ t', exec i s' = .next t' ∧ t'.toCoreState = t.toCoreState := by
  obtain ⟨c, q, n⟩ := s
  obtain ⟨c', q', n'⟩ := s'
  cases hc
  cases i
  case ret =>
    rw [exec_ret_eq] at h ⊢; split at h <;> cases h
    exacts [⟨_, dif_pos ‹_›, rfl⟩, ⟨_, dif_neg ‹_›, rfl⟩]
  case call =>
    rw [exec_call_eq] at h ⊢; split at h <;> cases h
    exacts [⟨_, dif_pos ‹_›, rfl⟩, ⟨_, dif_neg ‹_›, rfl⟩]
  case skp =>
    rw [exec_skp_eq] at h ⊢; split at h <;> cases h
    exacts [⟨_, dif_pos ‹_›, rfl⟩, ⟨_, dif_neg ‹_›, rfl⟩]
  case sknp =>
    rw [exec_sknp_eq] at h ⊢; split at h <;> cases h
    exacts [⟨_, dif_pos ‹_›, rfl⟩, ⟨_, dif_neg ‹_›, rfl⟩]
  case drw =>
    rw [exec_drw_eq] at h ⊢; split at h <;> cases h
    exacts [⟨_, if_pos ‹_›, rfl⟩, ⟨_, if_neg ‹_›, rfl⟩]
  case storeBcd =>
    rw [exec_storeBcd_eq] at h ⊢; split at h <;> cases h
    exacts [⟨_, if_pos ‹_›, rfl⟩, ⟨_, if_neg ‹_›, rfl⟩]
  case storeRegs =>
    rw [exec_storeRegs_eq] at h ⊢; split at h <;> cases h
    exacts [⟨_, if_pos ‹_›, rfl⟩, ⟨_, if_neg ‹_›, rfl⟩]
  case loadRegs =>
    rw [exec_loadRegs_eq] at h ⊢; split at h <;> cases h
    exacts [⟨_, if_pos ‹_›, by rw [State.setRegsFrom_eq, State.setRegsFrom_eq]; rfl⟩, ⟨_, if_neg ‹_›, rfl⟩]
  case ldVxKey =>
    simp only [exec, execLdVxKey] at h ⊢
    split at h
    · rw [if_pos ‹_›]
      split at h <;> cases h
      exacts [⟨_, if_pos ‹_›, rfl⟩, ⟨_, if_neg ‹_›, rfl⟩]
    · cases h; exact ⟨_, if_neg ‹_›, rfl⟩
  case rnd x nn =>
    cases h
    refine ⟨_, rfl, ?_⟩
    have e := hd.resolve_right fun hn => hn x nn rfl
    simp only [e]; rfl
  all_goals cases h; exact ⟨_, rfl, rfl⟩

end Sys2Proof.Machine
end

