-- ==== Sys2Proof/Laws/Host.lean ====
section
/-! SUPPORT. What storing an image and each host operation can do, said once. -/

namespace Sys2Proof.Machine

-- one theorem at a time: each theorem elaborated beside others holds a thread's stack, and memory is limited
set_option Elab.async false

/-- A latch that holds a fault keeps it (R217). -/
theorem State.raise_of_some {s : State} {f : Fault} (g : Fault) (h : s.fault = some f) : s.raise g = s := by
  simp only [State.raise, h, Option.orElse_eq_orElse, Option.orElse_some]
  rw [← h]

/-- Everything storing bytes that fit can do. -/
theorem State.placeBytes_eq {s : State} {a : Nat} {bs : List Byte} (h : a + bs.length ≤ 0x1000) :
    s.placeBytes a bs = { s with mem := Memory.writeAll s.mem a bs } := by
  induction bs generalizing s a with
  | nil => rfl
  | cons b bs ih =>
    simp only [List.length_cons] at h
    rw [State.placeBytes, if_pos (show a < 0x1000 by omega), ih (by omega)]
    rfl

theorem imageFits_iff (image : List Byte) : imageFits image = true ↔ image.length ≤ 3584 := decide_eq_true_iff

/-- Everything `load` can do (R192). -/
theorem State.hostLoad_eq (s : State) (image : List Byte) :
    s.hostLoad image =
      if image.length ≤ 3584 then { s with mem := Memory.writeAll s.mem 0x200 image }
      else s.raise (.memOutOfBounds 0x1000) := by
  unfold State.hostLoad
  by_cases h : image.length ≤ 3584
  · rw [if_pos ((imageFits_iff image).mpr h), if_pos h, State.placeBytes_eq (show 0x200 + image.length ≤ 0x1000 by omega)]
  · rw [if_neg (mt (imageFits_iff image).mp h), if_neg h]

/-- Everything `Step(rnd)` can do: a step to which `rnd` is given (R90, R92). -/
theorem CoreState.step_eq_next {c d : CoreState} {rnd : Byte} :
    CoreState.step rnd c = .next d ↔
      ∃ u, Sys2Proof.Machine.step { toCoreState := c, rndIn := [rnd], draws := 0 } = .next u ∧ d = u.toCoreState := by
  unfold CoreState.step
  cases Sys2Proof.Machine.step { toCoreState := c, rndIn := [rnd], draws := 0 } <;> simp [eq_comm]

/-- Everything the operation `step(rnd)` can do (R199): `Step(rnd)` on the core. -/
theorem State.hostStep_eq_next {s t : State} {rnd : Byte} :
    s.hostStep rnd = .next t ↔ ∃ c, CoreState.step rnd s.toCoreState = .next c ∧ t = { s with toCoreState := c } := by
  unfold State.hostStep
  cases CoreState.step rnd s.toCoreState <;> simp [eq_comm]

/-- Everything a host operation can do (R190). -/
theorem perform_cases {op : HostOp} {s t : State} {r : Reply} (h : perform op s = .next (t, r)) :
    (op = .reset ∧ t = s.hostReset) ∨ (∃ image, op = .load image ∧ t = s.hostLoad image) ∨
    (∃ rnd c, op = .step rnd ∧ CoreState.step rnd s.toCoreState = .next c ∧ t = { s with toCoreState := c }) ∨
    (∃ c, op = .setKey c ∧ t = s.hostSetKey c) ∨ (∃ c, op = .clearKey c ∧ t = s.hostClearKey c) ∨
    (op = .clearDrawFlag ∧ t = s.hostClearDrawFlag) ∨
    ((op = .readFrame ∨ op = .readSoundTimer ∨ op = .readFault) ∧ t = s) := by
  cases op
  case step rnd =>
    simp only [perform] at h
    cases hs : s.hostStep rnd <;> rw [hs] at h <;> cases h
    obtain ⟨u, hu, rfl⟩ := State.hostStep_eq_next.mp hs
    exact .inr (.inr (.inl ⟨rnd, u, rfl, hu, rfl⟩))
  all_goals cases h; simp

end Sys2Proof.Machine
end

