-- ==== Sys2Proof/Laws/PerInstr.lean ====
section
/-! SUPPORT. Statements made per instruction: one lemma per constructor of `Instr`. -/

namespace Sys2Proof.Laws.EncodesInRow

-- one theorem at a time: each theorem elaborated beside others holds a thread's stack, and memory is limited
set_option Elab.async false

/-- The word of an instruction matches the row of the opcode map that the instruction belongs to (R65). -/
def Statement (i : Instr) : Prop := i.row ∈ opcodeMap ∧ i.row.matchesWord (encode i) = true

/-- From the masked word. -/
theorem of_masked {i : Instr} (r : OpcodeRow) (hi : i.row = r) (hr : r ∈ opcodeMap)
    (h : encode i &&& r.mask = r.value) : Statement i :=
  ⟨hi ▸ hr, by rw [hi, OpcodeRow.matchesWord, h, beq_self_eq_true]⟩

theorem halt0 : Statement .halt0 := of_masked ⟨0xFFFF, 0x0000⟩ rfl (by decide) rfl

theorem cls : Statement .cls := of_masked ⟨0xFFFF, 0x00E0⟩ rfl (by decide) rfl

theorem ret : Statement .ret := of_masked ⟨0xFFFF, 0x00EE⟩ rfl (by decide) rfl

theorem jp (nnn : BitVec 12) : Statement (.jp nnn) :=
  of_masked ⟨0xF000, 0x1000⟩ rfl (by decide) ((wordNNN_and_mask _ nnn).trans rfl)

theorem call (nnn : BitVec 12) : Statement (.call nnn) :=
  of_masked ⟨0xF000, 0x2000⟩ rfl (by decide) ((wordNNN_and_mask _ nnn).trans rfl)

theorem seImm (x : Reg) (nn : Byte) : Statement (.seImm x nn) :=
  of_masked ⟨0xF000, 0x3000⟩ rfl (by decide) ((wordXNN_and_mask_op _ x nn).trans rfl)

theorem sneImm (x : Reg) (nn : Byte) : Statement (.sneImm x nn) :=
  of_masked ⟨0xF000, 0x4000⟩ rfl (by decide) ((wordXNN_and_mask_op _ x nn).trans rfl)

theorem seReg (x y : Reg) : Statement (.seReg x y) :=
  of_masked ⟨0xF00F, 0x5000⟩ rfl (by decide) ((wordXY_and_mask _ x y _).trans rfl)

theorem ldImm (x : Reg) (nn : Byte) : Statement (.ldImm x nn) :=
  of_masked ⟨0xF000, 0x6000⟩ rfl (by decide) ((wordXNN_and_mask_op _ x nn).trans rfl)

theorem addImm (x : Reg) (nn : Byte) : Statement (.addImm x nn) :=
  of_masked ⟨0xF000, 0x7000⟩ rfl (by decide) ((wordXNN_and_mask_op _ x nn).trans rfl)

theorem ldReg (x y : Reg) : Statement (.ldReg x y) :=
  of_masked ⟨0xF00F, 0x8000⟩ rfl (by decide) ((wordXY_and_mask _ x y _).trans rfl)

theorem orReg (x y : Reg) : Statement (.orReg x y) :=
  of_masked ⟨0xF00F, 0x8001⟩ rfl (by decide) ((wordXY_and_mask _ x y _).trans rfl)

theorem andReg (x y : Reg) : Statement (.andReg x y) :=
  of_masked ⟨0xF00F, 0x8002⟩ rfl (by decide) ((wordXY_and_mask _ x y _).trans rfl)

theorem xorReg (x y : Reg) : Statement (.xorReg x y) :=
  of_masked ⟨0xF00F, 0x8003⟩ rfl (by decide) ((wordXY_and_mask _ x y _).trans rfl)

theorem addReg (x y : Reg) : Statement (.addReg x y) :=
  of_masked ⟨0xF00F, 0x8004⟩ rfl (by decide) ((wordXY_and_mask _ x y _).trans rfl)

theorem subReg (x y : Reg) : Statement (.subReg x y) :=
  of_masked ⟨0xF00F, 0x8005⟩ rfl (by decide) ((wordXY_and_mask _ x y _).trans rfl)

theorem shrReg (x y : Reg) : Statement (.shrReg x y) :=
  of_masked ⟨0xF00F, 0x8006⟩ rfl (by decide) ((wordXY_and_mask _ x y _).trans rfl)

theorem subnReg (x y : Reg) : Statement (.subnReg x y) :=
  of_masked ⟨0xF00F, 0x8007⟩ rfl (by decide) ((wordXY_and_mask _ x y _).trans rfl)

theorem shlReg (x y : Reg) : Statement (.shlReg x y) :=
  of_masked ⟨0xF00F, 0x800E⟩ rfl (by decide) ((wordXY_and_mask _ x y _).trans rfl)

theorem sneReg (x y : Reg) : Statement (.sneReg x y) :=
  of_masked ⟨0xF00F, 0x9000⟩ rfl (by decide) ((wordXY_and_mask _ x y _).trans rfl)

theorem ldIdx (nnn : BitVec 12) : Statement (.ldIdx nnn) :=
  of_masked ⟨0xF000, 0xA000⟩ rfl (by decide) ((wordNNN_and_mask _ nnn).trans rfl)

theorem jpV0 (nnn : BitVec 12) : Statement (.jpV0 nnn) :=
  of_masked ⟨0xF000, 0xB000⟩ rfl (by decide) ((wordNNN_and_mask _ nnn).trans rfl)

theorem rnd (x : Reg) (nn : Byte) : Statement (.rnd x nn) :=
  of_masked ⟨0xF000, 0xC000⟩ rfl (by decide) ((wordXNN_and_mask_op _ x nn).trans rfl)

theorem drw (x y : Reg) (n : BitVec 4) : Statement (.drw x y n) :=
  of_masked ⟨0xF000, 0xD000⟩ rfl (by decide) ((wordXY_and_mask_op _ x y n).trans rfl)

theorem skp (x : Reg) : Statement (.skp x) :=
  of_masked ⟨0xF0FF, 0xE09E⟩ rfl (by decide) ((wordXNN_and_mask _ x _).trans rfl)

theorem sknp (x : Reg) : Statement (.sknp x) :=
  of_masked ⟨0xF0FF, 0xE0A1⟩ rfl (by decide) ((wordXNN_and_mask _ x _).trans rfl)

theorem ldVxDt (x : Reg) : Statement (.ldVxDt x) :=
  of_masked ⟨0xF0FF, 0xF007⟩ rfl (by decide) ((wordXNN_and_mask _ x _).trans rfl)

theorem ldVxKey (x : Reg) : Statement (.ldVxKey x) :=
  of_masked ⟨0xF0FF, 0xF00A⟩ rfl (by decide) ((wordXNN_and_mask _ x _).trans rfl)

theorem ldDtVx (x : Reg) : Statement (.ldDtVx x) :=
  of_masked ⟨0xF0FF, 0xF015⟩ rfl (by decide) ((wordXNN_and_mask _ x _).trans rfl)

theorem ldStVx (x : Reg) : Statement (.ldStVx x) :=
  of_masked ⟨0xF0FF, 0xF018⟩ rfl (by decide) ((wordXNN_and_mask _ x _).trans rfl)

theorem addIdx (x : Reg) : Statement (.addIdx x) :=
  of_masked ⟨0xF0FF, 0xF01E⟩ rfl (by decide) ((wordXNN_and_mask _ x _).trans rfl)

theorem ldGlyph (x : Reg) : Statement (.ldGlyph x) :=
  of_masked ⟨0xF0FF, 0xF029⟩ rfl (by decide) ((wordXNN_and_mask _ x _).trans rfl)

theorem storeBcd (x : Reg) : Statement (.storeBcd x) :=
  of_masked ⟨0xF0FF, 0xF033⟩ rfl (by decide) ((wordXNN_and_mask _ x _).trans rfl)

theorem storeRegs (x : Reg) : Statement (.storeRegs x) :=
  of_masked ⟨0xF0FF, 0xF055⟩ rfl (by decide) ((wordXNN_and_mask _ x _).trans rfl)

theorem loadRegs (x : Reg) : Statement (.loadRegs x) :=
  of_masked ⟨0xF0FF, 0xF065⟩ rfl (by decide) ((wordXNN_and_mask _ x _).trans rfl)

end Sys2Proof.Laws.EncodesInRow
end

