-- ==== Sys2Proof/Tests/Slice0.lean ====
section
/-! SUPPORT. Tests and witnesses. A test's expected result is the vector of spec/95_test_vectors.md that its comment names,
worked out there from the rules by hand. A theorem `witness_<Name>` gives, for `Obligations.<Name>`, states and operands
that meet its hypotheses, each clause at a boundary value. -/

namespace Sys2Proof.Tests

-- one theorem at a time: each theorem elaborated beside others holds a thread's stack, and memory is limited
set_option Elab.async false

open Sys2Proof.Machine

/-! ### Helpers -/

/-- The reset state with the word `w` at `pc`. -/
def fetching (w : Nat) : State := State.reset.withFetchWord 16 w

/-- `s` with the word `w` at `pc` and registers set. -/
def State.setting (s : State) (regs : List (Reg × Byte)) : State := regs.foldl (fun t p => t.setReg p.1 p.2) s

/-- `s` with bytes stored from `a` upward. -/
def State.holding (s : State) (a : Nat) (bs : List Byte) : State := s.placeBytes a bs

/-- The outcome is a next state that passes the check. -/
def passes (o : Host.Outcome State Fault Refusal) (check : State → Bool) : Bool :=
  match o with
  | .next t => check t
  | _ => false

theorem exists_of_passes {o : Host.Outcome State Fault Refusal} {check : State → Bool} (h : passes o check = true) :
    ∃ t, o = .next t ∧ check t = true := by
  cases o with
  | next t => exact ⟨t, rfl, h⟩
  | fault f => cases h
  | refused r => cases h

/-- The register `r` holds `b`. -/
def holds (r : Reg) (b : Byte) (t : State) : Bool := t.reg r == b

/-- The byte at `a` reads as `b`. -/
def reads (a : Nat) (b : Byte) (t : State) : Bool := Memory.read t.mem a == b

/-- The core latched `f`, and `pc` is still 0x200. -/
def latched (f : Fault) (t : State) : Bool := t.fault == some f && t.pc == 0x200

/-! ### Decoding: one word for every constructor, written out from the patterns of R65 -/

theorem test_decode_zero :
    decodeWord 0x0000 = some .halt0 ∧ decodeWord 0x00E0 = some .cls ∧ decodeWord 0x00EE = some .ret := by decide

theorem test_decode_address :
    decodeWord 0x1204 = some (.jp 0x204) ∧ decodeWord 0x220A = some (.call 0x20A) ∧
    decodeWord 0xA300 = some (.ldIdx 0x300) ∧ decodeWord 0xBFFF = some (.jpV0 0xFFF) := by decide

theorem test_decode_immediate :
    decodeWord 0x3100 = some (.seImm 1 0x00) ∧ decodeWord 0x4311 = some (.sneImm 3 0x11) ∧
    decodeWord 0x6FAB = some (.ldImm 15 0xAB) ∧ decodeWord 0x71FF = some (.addImm 1 0xFF) ∧
    decodeWord 0xC10F = some (.rnd 1 0x0F) := by decide

theorem test_decode_two_registers :
    decodeWord 0x5230 = some (.seReg 2 3) ∧ decodeWord 0x8120 = some (.ldReg 1 2) ∧
    decodeWord 0x8121 = some (.orReg 1 2) ∧ decodeWord 0x8122 = some (.andReg 1 2) ∧
    decodeWord 0x8123 = some (.xorReg 1 2) ∧ decodeWord 0x8124 = some (.addReg 1 2) ∧
    decodeWord 0x8125 = some (.subReg 1 2) ∧ decodeWord 0x8126 = some (.shrReg 1 2) ∧
    decodeWord 0x8127 = some (.subnReg 1 2) ∧ decodeWord 0x812E = some (.shlReg 1 2) ∧
    decodeWord 0x9230 = some (.sneReg 2 3) := by decide

theorem test_decode_draw_and_keys :
    decodeWord 0xD125 = some (.drw 1 2 5) ∧ decodeWord 0xE19E = some (.skp 1) ∧
    decodeWord 0xE1A1 = some (.sknp 1) := by decide

theorem test_decode_misc :
    decodeWord 0xF207 = some (.ldVxDt 2) ∧ decodeWord 0xF10A = some (.ldVxKey 1) ∧
    decodeWord 0xF015 = some (.ldDtVx 0) ∧ decodeWord 0xF318 = some (.ldStVx 3) ∧
    decodeWord 0xF21E = some (.addIdx 2) ∧ decodeWord 0xF029 = some (.ldGlyph 0) ∧
    decodeWord 0xF033 = some (.storeBcd 0) ∧ decodeWord 0xF255 = some (.storeRegs 2) ∧
    decodeWord 0xF265 = some (.loadRegs 2) := by decide

/-- R60: bytes in the order memory holds them; a lone byte is no instruction. -/
theorem test_decode_bytes :
    decodeBytes [0x12, 0x04, 0xFF] = some (.jp 0x204, [0xFF]) ∧ decodeBytes [0x12] = none ∧
    decodeTableWord 16 0x8126 = some (.shrReg 1 2) := by decide

/-! ### WellFormed: the checks refuse -/

/-- Vectors S8 to S12, and C22's neighbour words: illegal words of every family of R67, and legal words beside them. -/
theorem test_illegal_words_refused :
    ([0x0001, 0x00E1, 0x00EF, 0x00FF, 0x00C1, 0x0100, 0x0FFF, 0x5011, 0x501F, 0x9001, 0x8008, 0x800F, 0x812D, 0xE000,
      0xE19F, 0xE1A0, 0xF000, 0xF10B, 0xF075, 0xF085, 0xF1FF, 0xFFFF] : List Word).all
      (fun w => !legalWord w && (decodeWord w).isNone) = true ∧
    ([0x0000, 0x00E0, 0x5010, 0x9000, 0x800E, 0xE09E, 0xF065] : List Word).all legalWord = true := by decide

/-- R192: 3584 bytes fit, 3585 do not. -/
theorem test_image_size :
    imageFits (List.replicate 3584 0x12) = true ∧ imageFits (List.replicate 3585 0x12) = false := by
  constructor <;> simp only [imageFits, List.length_replicate] <;> rfl

/-! ### One step -/

/-- E10. -/
theorem test_halt0_changes_nothing :
    passes (step { State.reset with dt := 5, st := 2 }) (· == { State.reset with dt := 5, st := 2 }) = true := by
  decide +kernel

/-- S2. -/
theorem test_halt0_ignores_waiting :
    passes (step { State.reset with dt := 5, waiting := true })
      (· == { State.reset with dt := 5, waiting := true }) = true := by decide +kernel

/-- S3, S5. -/
theorem test_fetch_out_of_bounds :
    passes (step { State.reset with pc := 0x0FFF }) (·.fault == some (.memOutOfBounds 0x1000)) = true ∧
    passes (step { State.reset with pc := 0x10FE }) (·.fault == some (.memOutOfBounds 0x10FE)) = true := by
  decide +kernel

/-- S8. -/
theorem test_illegal_word_faults :
    passes (step { fetching 0x0FFF with dt := 3 }) (fun t => latched (.illegalOpcode 0x0FFF) t && t.dt == 3) = true := by
  decide +kernel

/-- S13. -/
theorem test_faulted_core_stays :
    passes (step { fetching 0x6105 with fault := some (.illegalOpcode 0xFFFF), dt := 3 })
      (fun t => holds 1 0 t && t.pc == 0x200 && t.dt == 3) = true := by decide +kernel

/-- S14. -/
theorem test_ldImm_and_decay :
    passes (step { fetching 0x6105 with dt := 1, st := 2 })
      (fun t => holds 1 5 t && t.pc == 0x202 && t.dt == 0 && t.st == 1) = true := by decide +kernel

/-- E1, A3. -/
theorem test_addImm_wraps :
    passes (step (State.setting (fetching 0x7102) [(1, 0xFF), (15, 0x55)]))
      (fun t => holds 1 0x01 t && holds 15 0x55 t) = true := by decide +kernel

/-- A5. -/
theorem test_addImm_vf_gets_the_sum :
    passes (step (State.setting (fetching 0x7F01) [(15, 0xFF)])) (holds 15 0x00) = true := by decide +kernel

/-- A6. -/
theorem test_ldReg :
    passes (step (State.setting (fetching 0x8120) [(1, 0x11), (2, 0x3C)])) (holds 1 0x3C) = true := by decide +kernel

/-- A7. -/
theorem test_orReg :
    passes (step (State.setting (fetching 0x8121) [(1, 0xF0), (2, 0x0F), (15, 0x77)]))
      (fun t => holds 1 0xFF t && holds 15 0x77 t) = true := by decide +kernel

/-- A8. -/
theorem test_andReg :
    passes (step (State.setting (fetching 0x8122) [(1, 0xF3), (2, 0x3C), (15, 0x77)]))
      (fun t => holds 1 0x30 t && holds 15 0x77 t) = true := by decide +kernel

/-- A9. -/
theorem test_xorReg :
    passes (step (State.setting (fetching 0x8123) [(1, 0xFF), (2, 0x0F), (15, 0x77)]))
      (fun t => holds 1 0xF0 t && holds 15 0x77 t) = true := by decide +kernel

/-- A13. -/
theorem test_addReg_carry :
    passes (step (State.setting (fetching 0x8124) [(1, 0x80), (2, 0x80)]))
      (fun t => holds 1 0x00 t && holds 15 0x01 t) = true := by decide +kernel

/-- A15. -/
theorem test_addReg_vf_gets_the_carry :
    passes (step (State.setting (fetching 0x8F14) [(15, 0xFF), (1, 0x01)])) (holds 15 0x01) = true := by decide +kernel

/-- A18. -/
theorem test_subReg_borrow :
    passes (step (State.setting (fetching 0x8125) [(1, 0x03), (2, 0x05), (15, 0x01)]))
      (fun t => holds 1 0xFE t && holds 15 0x00 t) = true := by decide +kernel

/-- A19. -/
theorem test_subReg_equal :
    passes (step (State.setting (fetching 0x8125) [(1, 0x07), (2, 0x07)]))
      (fun t => holds 1 0x00 t && holds 15 0x01 t) = true := by decide +kernel

/-- A21. -/
theorem test_shrReg_source_is_vy :
    passes (step (State.setting (fetching 0x8126) [(1, 0xAA), (2, 0x05)]))
      (fun t => holds 1 0x02 t && holds 15 0x01 t && holds 2 0x05 t) = true := by decide +kernel

/-- A26. -/
theorem test_shrReg_vf_gets_the_result :
    passes (step (State.setting (fetching 0x8FF6) [(15, 0x06)])) (holds 15 0x03) = true := by decide +kernel

/-- A27. -/
theorem test_subnReg :
    passes (step (State.setting (fetching 0x8127) [(1, 0x03), (2, 0x05)]))
      (fun t => holds 1 0x02 t && holds 15 0x01 t) = true := by decide +kernel

/-- A28. -/
theorem test_subnReg_borrow :
    passes (step (State.setting (fetching 0x8127) [(1, 0x05), (2, 0x03), (15, 0x01)]))
      (fun t => holds 1 0xFE t && holds 15 0x00 t) = true := by decide +kernel

/-- A30. -/
theorem test_shlReg :
    passes (step (State.setting (fetching 0x812E) [(2, 0x81)])) (fun t => holds 1 0x02 t && holds 15 0x01 t) = true := by
  decide +kernel

/-- A33. -/
theorem test_shlReg_source_vf :
    passes (step (State.setting (fetching 0x81FE) [(15, 0xC0), (1, 0x99)]))
      (fun t => holds 1 0x80 t && holds 15 0x01 t) = true := by decide +kernel

/-- A34, A35: the draw is supplied. -/
theorem test_rnd_masks_the_draw :
    passes (step { State.setting (fetching 0xC10F) [(1, 0xFF)] with rndIn := [0xA7] }) (holds 1 0x07) = true ∧
    passes ((State.setting (fetching 0xC100) [(1, 0xFF)]).hostStep 0xFF) (holds 1 0x00) = true := by decide +kernel

/-- C2. -/
theorem test_jp_to_itself :
    passes (step { fetching 0x1200 with dt := 2 }) (fun t => t.pc == 0x200 && t.dt == 1) = true := by decide +kernel

/-- C5. -/
theorem test_call_sixteenth_level :
    passes (step { fetching 0x2300 with sp := 15 })
      (fun t => t.stack[15] == 0x0202 && t.sp.val == 16 && t.pc == 0x300) = true := by decide +kernel

/-- C6. -/
theorem test_call_seventeenth_level :
    passes (step { fetching 0x2300 with sp := 16 })
      (fun t => latched (.stackOverflow 0x2300) t && t.sp.val == 16) = true := by decide +kernel

/-- C9. -/
theorem test_ret_top_cell :
    passes (step { fetching 0x00EE with sp := 16, stack := State.reset.stack.set 15 0x0ABC })
      (fun t => t.pc == 0xABC && t.sp.val == 15) = true := by decide +kernel

/-- C8. -/
theorem test_ret_underflow : passes (step (fetching 0x00EE)) (latched (.stackUnderflow 0x00EE)) = true := by
  decide +kernel

/-- C10, C11 (at 0x200). -/
theorem test_seImm :
    passes (step (fetching 0x3100)) (·.pc == 0x204) = true ∧
    passes (step (State.setting (fetching 0x3100) [(1, 4)])) (·.pc == 0x202) = true := by decide +kernel

/-- C12, C13 (at 0x200). -/
theorem test_sneImm :
    passes (step (State.setting (fetching 0x4311) [(3, 0x10)])) (·.pc == 0x204) = true ∧
    passes (step (State.setting (fetching 0x4310) [(3, 0x10)])) (·.pc == 0x202) = true := by decide +kernel

/-- C15, C16. -/
theorem test_seReg :
    passes (step (State.setting (fetching 0x5230) [(2, 7), (3, 8)])) (·.pc == 0x202) = true ∧
    passes (step (State.setting (fetching 0x5220) [(2, 9)])) (·.pc == 0x204) = true := by decide +kernel

/-- C17, C19. -/
theorem test_sneReg :
    passes (step (State.setting (fetching 0x9230) [(2, 7), (3, 8)])) (·.pc == 0x204) = true ∧
    passes (step (State.setting (fetching 0x9220) [(2, 9)])) (·.pc == 0x202) = true := by decide +kernel

/-- C21, C22. -/
theorem test_jpV0 :
    passes (step (State.setting (fetching 0xBFFF) [(0, 0xFF)])) (·.pc == 0x10FE) = true ∧
    passes (step (State.setting (fetching 0xB2FF) [(0, 0x01), (2, 0x55)])) (·.pc == 0x300) = true := by decide +kernel

/-- M2. -/
theorem test_ldIdx : passes (step { fetching 0xAFFF with idx := 0xFFFF }) (·.idx == 0x0FFF) = true := by
  decide +kernel

/-- M4, M5. -/
theorem test_addIdx :
    passes (step (State.setting { fetching 0xF21E with idx := 0xFFFF } [(2, 2), (15, 0x33)]))
      (fun t => t.idx == 0x0001 && holds 15 0x33 t) = true ∧
    passes (step (State.setting { fetching 0xF21E with idx := 0x0FFF } [(2, 1)])) (·.idx == 0x1000) = true := by
  decide +kernel

/-- M6, M9. -/
theorem test_ldGlyph :
    passes (step (State.setting (fetching 0xF029) [(0, 0x0A)])) (·.idx == 0x0032) = true ∧
    passes (step (State.setting (fetching 0xF029) [(0, 0xFF)])) (·.idx == 0x04FB) = true := by decide +kernel

/-- M10, E6. -/
theorem test_storeBcd :
    passes (step (State.setting { fetching 0xF033 with idx := 0x300 } [(0, 156)]))
      (fun t => reads 0x300 1 t && reads 0x301 5 t && reads 0x302 6 t && t.idx == 0x300) = true := by decide +kernel

/-- M13. -/
theorem test_storeBcd_no_partial_store :
    passes (step (State.setting { fetching 0xF033 with idx := 0xFFE } [(0, 255)]))
      (fun t => latched (.memOutOfBounds 0x1000) t && reads 0xFFE 0 t && reads 0xFFF 0 t) = true := by decide +kernel

/-- M16. -/
theorem test_storeRegs :
    passes (step (State.setting { fetching 0xF255 with idx := 0x400 } [(0, 0x11), (1, 0x22), (2, 0x33), (3, 0x44)]))
      (fun t => reads 0x400 0x11 t && reads 0x402 0x33 t && reads 0x403 0 t && t.idx == 0x400) = true := by
  decide +kernel

/-- M18. -/
theorem test_storeRegs_no_partial_store :
    passes (step (State.setting { fetching 0xF155 with idx := 0xFFF } [(0, 0x5A), (1, 0x6B)]))
      (fun t => latched (.memOutOfBounds 0x1000) t && reads 0xFFF 0 t) = true := by decide +kernel

/-- M21. -/
theorem test_loadRegs :
    passes (step (State.setting { State.holding (fetching 0xF265) 0x300 [1, 5, 6, 9] with idx := 0x300 } [(3, 0x77)]))
      (fun t => holds 0 1 t && holds 1 5 t && holds 2 6 t && holds 3 0x77 t && t.idx == 0x300) = true := by
  decide +kernel

/-- M25: an instruction word as data, high byte first. -/
theorem test_loadRegs_own_high_byte :
    passes (step { fetching 0xF065 with idx := 0x200 }) (holds 0 0xF0) = true := by decide +kernel

/-- K1, K2 (at 0x200). -/
theorem test_skp :
    passes (step { State.setting (fetching 0xE19E) [(1, 7)] with keys := State.reset.keys.set 7 true })
      (·.pc == 0x204) = true ∧
    passes (step (State.setting (fetching 0xE19E) [(1, 7)])) (·.pc == 0x202) = true := by decide +kernel

/-- K5. -/
theorem test_skp_bad_index :
    passes (step (State.setting (fetching 0xE19E) [(1, 0x10)])) (latched (.badKeyIndex 0x10)) = true := by decide +kernel

/-- K3, K4 (at 0x200). -/
theorem test_sknp :
    passes (step (State.setting (fetching 0xE1A1) [(1, 7)])) (·.pc == 0x204) = true ∧
    passes (step { State.setting (fetching 0xE1A1) [(1, 7)] with keys := State.reset.keys.set 7 true })
      (·.pc == 0x202) = true := by decide +kernel

/-- K6. -/
theorem test_sknp_bad_index :
    passes (step { State.setting (fetching 0xE1A1) [(1, 0xFF)] with keys := State.reset.keys.set 15 true })
      (latched (.badKeyIndex 0xFF)) = true := by decide +kernel

/-- K8. -/
theorem test_ldVxDt :
    passes (step { fetching 0xF207 with dt := 8 }) (fun t => holds 2 8 t && t.dt == 7) = true := by decide +kernel

/-- K11, K12. -/
theorem test_ldDtVx :
    passes (step (State.setting (fetching 0xF015) [(0, 0x0A)])) (·.dt == 9) = true ∧
    passes (step { fetching 0xF015 with dt := 5 }) (·.dt == 0) = true := by decide +kernel

/-- K16. -/
theorem test_ldStVx :
    passes (step { State.setting (fetching 0xF318) [(3, 0xFF)] with dt := 3 })
      (fun t => t.st == 254 && t.dt == 2) = true := by decide +kernel

/-- K17, `Step` 1 (at 0x200). -/
theorem test_ldVxKey_entry :
    passes (step { fetching 0xF10A with dt := 9, st := 3, keys := State.reset.keys.set 7 true })
      (fun t => t.waiting && !t.keyNotify && t.dt == 8 && t.st == 2 && t.pc == 0x200) = true := by decide +kernel

/-- K17, `Step` 4 (at 0x200). -/
theorem test_ldVxKey_completion :
    passes (step { fetching 0xF10A with dt := 8, st := 2, waiting := true, keyValue := 3, keyNotify := true })
      (fun t => holds 1 3 t && !t.waiting && !t.keyNotify && t.dt == 8 && t.st == 2 && t.pc == 0x202) = true := by
  decide +kernel

/-- D3. -/
theorem test_cls :
    passes (step { fetching 0x00E0 with fb := Screen.clear.flip 0 0 })
      (fun t => t.fb == Screen.clear && t.drawFlag) = true := by decide +kernel

/-- D4. -/
theorem test_drw_wraps :
    passes (step (State.setting { State.holding (fetching 0xD122) 0x20E [0xC3, 0x81] with idx := 0x20E }
        [(1, 62), (2, 31)]))
      (fun t => t.fb == (((((Screen.clear.flip 62 31).flip 63 31).flip 4 31).flip 5 31).flip 62 0).flip 5 0 &&
        holds 15 0 t && t.drawFlag) = true := by decide +kernel

/-- D15: the reduced start coordinate, and a collision. -/
theorem test_drw_collides :
    passes (step (State.setting
        { State.holding (fetching 0xD121) 0x300 [0x80] with idx := 0x300, fb := Screen.clear.flip 0 0 }
        [(1, 64), (2, 32)]))
      (fun t => t.fb == Screen.clear && holds 15 1 t) = true := by decide +kernel

/-! ### Host operations -/

/-- E8. -/
theorem test_load :
    (match perform (.load [0x60, 0x05, 0xA3]) State.reset with
      | .next (t, .done) => reads 0x200 0x60 t && reads 0x201 0x05 t && reads 0x202 0xA3 t && reads 0x203 0 t &&
          reads 0x1FF 0 t && t.pc == 0x200
      | _ => false) = true := by decide +kernel

/-- K17: `set_key(7)` while waiting, and `set_key(5)` while idle. -/
theorem test_setKey :
    (match perform (.setKey 7) { State.reset with waiting := true } with
      | .next (t, .done) => t.key 7 && t.keyValue == 7 && t.keyNotify
      | _ => false) = true ∧
    (match perform (.setKey 5) State.reset with
      | .next (t, .done) => t.key 5 && t.keyValue == 0 && !t.keyNotify
      | _ => false) = true := by decide +kernel

/-! ### Witnesses for the hypotheses of the obligations -/

theorem witness_EncodeOfDecodeGivesTheWordBack : ∃ (w : Word) (i : Instr), decodeWord w = some i :=
  ⟨0x8126, .shrReg 1 2, by decide⟩

theorem witness_DecoderFollowsTheOpcodeMap :
    ∃ (w : Word) (i : Instr) (r : OpcodeRow), decodeWord w = some i ∧ r ∈ opcodeMap ∧ w &&& r.mask = r.value :=
  ⟨0xF065, .loadRegs 0, ⟨0xF0FF, 0xF065⟩, by decide⟩

/-- One step on a state with no fault and a legal word in bounds, its result passing a check. -/
def Decodes (s : State) (i : Instr) : Prop :=
  s.fault = none ∧ s.pc.toNat + 1 < 0x1000 ∧ decodeWord s.wordAtPc = some i

theorem decodes_ldImm : Decodes (fetching 0x6105) (.ldImm 1 5) := ⟨rfl, by decide +kernel, by decide +kernel⟩

/-- The last place an instruction can be fetched from. -/
theorem decodes_top :
    Decodes ({ State.reset with pc := 0xFFE }.withFetchWord 16 0x6001) (.ldImm 0 1) :=
  ⟨rfl, by decide +kernel, by decide +kernel⟩

theorem decodes_ret : Decodes (fetching 0x00EE) .ret := ⟨rfl, by decide +kernel, by decide +kernel⟩

theorem decodes_halt0 : Decodes State.reset .halt0 := ⟨rfl, by decide +kernel, by decide +kernel⟩

/-- A core that waits at an `FX0A`. -/
def waitingCore : State := { fetching 0xF10A with waiting := true, dt := 9, st := 3 }

theorem decodes_waiting : Decodes waitingCore (.ldVxKey 1) ∧ waitingCore.waiting = true :=
  ⟨⟨rfl, by decide +kernel, by decide +kernel⟩, rfl⟩

/-- The first clause through a raised fault, the sentinel and a waiting `FX0A`, the second clause at the top of memory. -/
theorem witness_StepRunsTheDecodedInstruction :
    (∃ t, Decodes (fetching 0x00EE) .ret ∧ exec .ret (fetching 0x00EE) = .next t ∧ t.fault ≠ none) ∧
    (∃ t, Decodes State.reset .halt0 ∧ exec .halt0 State.reset = .next t) ∧
    (∃ t, Decodes waitingCore (.ldVxKey 1) ∧ waitingCore.waiting = true ∧
      exec (.ldVxKey 1) waitingCore = .next t) ∧
    (∃ s t, s.pc.toNat = 0xFFE ∧ Decodes s (.ldImm 0 1) ∧ exec (.ldImm 0 1) s = .next t ∧ t.fault = none) :=
  ⟨⟨_, decodes_ret, rfl, by decide +kernel⟩, ⟨_, decodes_halt0, rfl⟩,
    ⟨_, decodes_waiting.1, decodes_waiting.2, rfl⟩, ⟨_, _, by decide +kernel, decodes_top, rfl, rfl⟩⟩

/-- A core that has latched a fault. -/
def faultedCore : State := { fetching 0x6105 with fault := some (.stackUnderflow 0x00EE) }

theorem witness_FaultedCoreDoesNothing : ∃ f, faultedCore.fault = some f := ⟨_, rfl⟩

theorem witness_FetchIsBigEndianAndBoundsChecked :
    (∃ s : State, s.pc.toNat = 0xFFE ∧ s.pc.toNat + 1 < 0x1000) ∧
    (∃ s : State, s.fault = none ∧ s.pc.toNat = 0x1000) ∧ (∃ s : State, s.fault = none ∧ s.pc.toNat = 0x0FFF) :=
  ⟨⟨{ State.reset with pc := 0xFFE }, by decide, by decide⟩, ⟨{ State.reset with pc := 0x1000 }, rfl, by decide⟩,
    ⟨{ State.reset with pc := 0x0FFF }, rfl, by decide⟩⟩

theorem witness_SentinelChangesNothing :
    Final State.reset ∧ State.reset.memRead State.reset.pc.toNat = .ok 0 ∧
      State.reset.memRead (State.reset.pc.toNat + 1) = .ok 0 :=
  ⟨⟨rfl, rfl, by decide, rfl, rfl⟩, rfl, rfl⟩

theorem witness_IllegalWordRaises :
    ∃ s : State, s.fault = none ∧ s.pc.toNat + 1 < 0x1000 ∧ ∀ r ∈ opcodeMap, s.wordAtPc &&& r.mask ≠ r.value :=
  ⟨fetching 0x5011, rfl, by decide +kernel, by decide +kernel⟩

/-- A step that latches `f`. -/
def Latches (s : State) (f : Fault) : Prop := s.fault = none ∧ ∃ t, step s = .next t ∧ t.fault = some f

theorem latches_of_passes {s : State} {f : Fault} (h : s.fault = none)
    (h' : passes (step s) (·.fault == some f) = true) : Latches s f := by
  obtain ⟨t, ht, hf⟩ := exists_of_passes h'
  exact ⟨h, t, ht, by simpa using hf⟩

theorem witness_RaisingStepChangesOnlyTheLatch : ∃ s f, Latches s f :=
  ⟨_, _, latches_of_passes (s := fetching 0xFFFF) (f := .illegalOpcode 0xFFFF) rfl (by decide +kernel)⟩

/-- Every cause, at its first value. -/
theorem witness_EachFaultHasItsCause :
    Latches { State.reset with pc := 0x0FFF } (.memOutOfBounds 0x1000) ∧
    Latches (fetching 0x0001) (.illegalOpcode 0x0001) ∧
    Latches { fetching 0x2300 with sp := 16 } (.stackOverflow 0x2300) ∧
    Latches (fetching 0x00EE) (.stackUnderflow 0x00EE) ∧
    Latches (State.setting (fetching 0xE09E) [(0, 16)]) (.badKeyIndex 16) ∧
    Latches { fetching 0xD002 with idx := 0xFFF } (.memOutOfBounds 0x1000) ∧
    Latches { fetching 0xF033 with idx := 0xFFE } (.memOutOfBounds 0x1000) ∧
    Latches { fetching 0xF155 with idx := 0xFFF } (.memOutOfBounds 0x1000) ∧
    Latches { fetching 0xF065 with idx := 0xFFFF } (.memOutOfBounds 0xFFFF) :=
  ⟨latches_of_passes rfl (by decide +kernel), latches_of_passes rfl (by decide +kernel),
    latches_of_passes rfl (by decide +kernel), latches_of_passes rfl (by decide +kernel),
    latches_of_passes rfl (by decide +kernel), latches_of_passes rfl (by decide +kernel),
    latches_of_passes rfl (by decide +kernel), latches_of_passes rfl (by decide +kernel),
    latches_of_passes rfl (by decide +kernel)⟩

/-- `Decodes`, and a step that passes a check. -/
def StepPasses (s : State) (i : Instr) (check : State → Bool) : Prop :=
  Decodes s i ∧ ∃ t, step s = .next t ∧ check t = true

theorem stepPasses {s : State} {i : Instr} {check : State → Bool} (h : Decodes s i)
    (h' : passes (step s) check = true) : StepPasses s i check := ⟨h, exists_of_passes h'⟩

/-- A raised fault, the sentinel, a waiting `FX0A`, an ordinary instruction, `FX15` and `FX18`. -/
theorem witness_TimersCountInstructions :
    StepPasses (fetching 0x00EE) .ret (·.fault.isSome) ∧ StepPasses State.reset .halt0 (·.fault.isNone) ∧
    StepPasses waitingCore (.ldVxKey 1) (·.fault.isNone) ∧
    StepPasses (fetching 0x6105) (.ldImm 1 5) (·.fault.isNone) ∧
    StepPasses (fetching 0xF015) (.ldDtVx 0) (·.fault.isNone) ∧
    StepPasses (fetching 0xF318) (.ldStVx 3) (·.fault.isNone) :=
  ⟨stepPasses decodes_ret (by decide +kernel), stepPasses decodes_halt0 (by decide +kernel),
    stepPasses decodes_waiting.1 (by decide +kernel), stepPasses decodes_ldImm (by decide +kernel),
    stepPasses ⟨rfl, by decide +kernel, by decide +kernel⟩ (by decide +kernel),
    stepPasses ⟨rfl, by decide +kernel, by decide +kernel⟩ (by decide +kernel)⟩

theorem witness_PcFollowsItsClass :
    StepPasses (fetching 0x00EE) .ret (·.fault.isSome) ∧ StepPasses (fetching 0x6105) (.ldImm 1 5) (·.fault.isNone) :=
  ⟨stepPasses decodes_ret (by decide +kernel), stepPasses decodes_ldImm (by decide +kernel)⟩

/-- A step, a word that is no `CXNN`, and a host operation. -/
theorem witness_StepDependsOnTheStateAndTheDrawOnly :
    (∃ t, step (fetching 0xC10F) = .next t) ∧ (∀ x nn, decodeWord (fetching 0x6105).wordAtPc ≠ some (.rnd x nn)) ∧
    ∃ t, perform (.step 0xA7) (fetching 0xC10F) = .next (t, .done) :=
  ⟨⟨_, rfl⟩,
    fun _ _ h => Instr.noConfusion (Option.some.inj
      ((show decodeWord (fetching 0x6105).wordAtPc = some (.ldImm 1 5) by decide +kernel).symm.trans h)),
    ⟨_, rfl⟩⟩

/-- An instruction that completes, and beside each kind of cell that an instruction writes one that it does not. -/
theorem witness_WritesFollowTheAccessMatrix :
    (∃ t, exec (.call 0x300) State.reset = .next t ∧ t.fault = State.reset.fault) ∧
    (regWritten (.ldImm 1 5) 1 = true ∧ regWritten (.ldImm 1 5) 2 = false) ∧
    (byteWritten (.storeBcd 0) State.reset 2 ∧ ¬byteWritten (.storeBcd 0) State.reset 3) ∧
    (byteWritten (.storeRegs 15) State.reset 15 ∧ ¬byteWritten (.storeRegs 15) State.reset 16) ∧
    (entryWritten (.call 0x300) State.reset 0 ∧ ¬entryWritten (.call 0x300) State.reset 1) ∧
    ¬pixelWritten (.drw 0 0 0) State.reset 0 0 :=
  ⟨⟨_, rfl, rfl⟩, by decide, by simp [byteWritten, State.base, State.reset, CoreState.reset],
    by simp [byteWritten, State.base, State.reset, CoreState.reset, regCount],
    by simp [entryWritten, State.reset, CoreState.reset], fun ⟨_, _, h, _⟩ => Nat.not_lt_zero _ h⟩

theorem witness_OnlyKeyTestsSeeTheKeys :
    (∃ t, (∀ x, Instr.ldVxDt 0 ≠ .skp x ∧ Instr.ldVxDt 0 ≠ .sknp x) ∧ exec (.ldVxDt 0) State.reset = .next t) ∧
    ∃ t, step State.reset = .next t :=
  ⟨⟨_, fun _ => ⟨Instr.noConfusion, Instr.noConfusion⟩, rfl⟩, ⟨_, rfl⟩⟩

theorem witness_OutputsDoNotInfluenceTheCore : ∃ t, step (fetching 0x6105) = .next t := ⟨_, rfl⟩

theorem witness_ReadAfterWrite : (0xFFF : Nat) < 0x1000 ∧ 0x1000 ≤ (0x1000 : Nat) := by decide

theorem witness_StoreIsSeenByTheNextFetch :
    ∃ s t : State, Decodes s (.storeRegs 1) ∧ s.idx.toNat = s.pc.toNat + 2 ∧ s.pc.toNat ≤ 0xFFE ∧
      s.idx.toNat + 1 < 0x1000 ∧ step s = .next t :=
  ⟨{ fetching 0xF155 with idx := 0x202 }, _, ⟨rfl, by decide +kernel, by decide +kernel⟩, by decide +kernel,
    by decide +kernel, by decide +kernel, rfl⟩

/-- No row with `I` out of bounds; the last row at 0xFFF; the second row at 0x1000; a collision. -/
theorem witness_DrwFlipsTheCoveredPixels :
    ((0 : BitVec 4).toNat = 0) ∧
    (∃ s : State, s.idx.toNat + (1 : BitVec 4).toNat - 1 = 0xFFF) ∧
    (∃ s : State, s.fault = none ∧ 1 ≤ (2 : BitVec 4).toNat ∧ s.idx.toNat + (2 : BitVec 4).toNat - 1 = 0x1000) ∧
    (∃ s : State, Covers s 0 0 1 0 0 ∧ s.fb.pixel 0 0 = true ∧ ¬Covers s 0 0 1 9 0) := by
  refine ⟨rfl, ⟨{ State.reset with idx := 0xFFF }, by decide⟩,
    ⟨{ State.reset with idx := 0xFFF }, rfl, by decide, by decide⟩,
    ⟨{ State.holding State.reset 0x300 [0x80] with idx := 0x300, fb := Screen.clear.flip 0 0 }, ?_, ?_, ?_⟩⟩
  · exact ⟨0, 0, by decide, by decide, by decide +kernel, by decide +kernel, by decide +kernel⟩
  · decide +kernel
  · rintro ⟨r, c, -, hc, -, hx, -⟩
    have h0 : (State.reg { State.holding State.reset 0x300 [0x80] with idx := 0x300, fb := Screen.clear.flip 0 0 }
      0).toNat = 0 := by decide +kernel
    simp only [h0] at hx
    change 9 = (0 + c) % 64 at hx
    omega

theorem witness_DrawingTwiceRestoresTheScreen :
    ∃ s t w : State, s.idx.toNat + (2 : BitVec 4).toNat - 1 = 0xFFF ∧ exec (.drw 1 2 2) s = .next t ∧
      t.mem = s.mem ∧ t.idx = s.idx ∧ t.reg 1 = s.reg 1 ∧ t.reg 2 = s.reg 2 ∧ exec (.drw 1 2 2) t = .next w :=
  ⟨{ State.reset with idx := 0xFFE }, _, _, by decide, rfl, rfl, rfl, rfl, rfl, rfl⟩

theorem witness_RetPopsThePc :
    (∃ s : State, s.sp.val = 1 ∧ 0 < s.sp.val) ∧ (∃ s : State, s.fault = none ∧ s.sp.val = 0) :=
  ⟨⟨{ State.reset with sp := 1 }, by decide⟩, ⟨State.reset, rfl, rfl⟩⟩

theorem witness_CallPushesTheReturnAddress :
    (∃ s : State, s.sp.val = 15 ∧ s.sp.val < 16) ∧ (∃ s : State, s.fault = none ∧ s.sp.val = 16) :=
  ⟨⟨{ State.reset with sp := 15 }, by decide⟩, ⟨{ State.reset with sp := 16 }, rfl, rfl⟩⟩

theorem witness_CallThenReturnRoundTrips :
    ∃ s t w : State, s.sp.val < 16 ∧ exec (.call 0x300) s = .next t ∧ exec .ret t = .next w :=
  ⟨{ State.reset with sp := 15 }, _, _, by decide, rfl, rfl⟩

/-- A skip taken and a skip not taken. -/
theorem witness_SkipsOnRegisters : State.reset.reg 0 = 0 ∧ State.reset.reg 0 ≠ 1 := by decide

/-- A destination that is not VF, and VF. -/
theorem witness_AddWritesSumThenCarry : (1 : Reg) ≠ .vf ∧ (15 : Reg) = .vf := by decide

theorem witness_RndMasksTheDraw :
    (∃ (s : State) (first : Byte) (rest : List Byte), s.rndIn = first :: rest) ∧ (∃ s : State, s.rndIn = []) :=
  ⟨⟨{ State.reset with rndIn := [0xA7] }, _, _, rfl⟩, ⟨State.reset, rfl⟩⟩

theorem witness_BcdStoresTheDigits :
    (∃ s : State, s.idx.toNat + 2 = 0xFFF) ∧ (∃ s : State, s.fault = none ∧ s.idx.toNat + 2 = 0x1000) :=
  ⟨⟨{ State.reset with idx := 0xFFD }, by decide⟩, ⟨{ State.reset with idx := 0xFFE }, rfl, by decide⟩⟩

theorem witness_StoreRegsStoresV0ToVx :
    (∃ s : State, s.idx.toNat + (15 : Reg).val = 0xFFF) ∧
    (∃ s : State, s.fault = none ∧ s.idx.toNat + (15 : Reg).val = 0x1000) :=
  ⟨⟨{ State.reset with idx := 0xFF0 }, by decide⟩, ⟨{ State.reset with idx := 0xFF1 }, rfl, by decide⟩⟩

theorem witness_LoadRegsLoadsV0ToVx :
    (∃ s : State, s.idx.toNat + (0 : Reg).val = 0xFFF) ∧
    (∃ s : State, s.fault = none ∧ s.idx.toNat + (1 : Reg).val = 0x1000) :=
  ⟨⟨{ State.reset with idx := 0xFFF }, by decide⟩, ⟨{ State.reset with idx := 0xFFF }, rfl, by decide⟩⟩

theorem witness_StoreThenLoadRestoresTheRegisters :
    ∃ s t w : State, s.idx.toNat + (15 : Reg).val < 0x1000 ∧ exec (.storeRegs 15) s = .next t ∧ t.idx = s.idx ∧
      exec (.loadRegs 15) t = .next w :=
  ⟨{ State.reset with idx := 0xFF0 }, _, _, by decide, rfl, rfl, rfl⟩

theorem witness_SkipsOnKeys :
    (∃ s : State, (s.reg 0).toNat = 15) ∧ (∃ s : State, s.fault = none ∧ (s.reg 0).toNat = 16) :=
  ⟨⟨State.setting State.reset [(0, 15)], by decide +kernel⟩,
    ⟨State.setting State.reset [(0, 16)], rfl, by decide +kernel⟩⟩

theorem witness_TimerAccess :
    Decodes (fetching 0xF207) (.ldVxDt 2) ∧ Decodes (fetching 0xF015) (.ldDtVx 0) ∧
      Decodes (fetching 0xF318) (.ldStVx 3) :=
  ⟨⟨rfl, by decide +kernel, by decide +kernel⟩, ⟨rfl, by decide +kernel, by decide +kernel⟩,
    ⟨rfl, by decide +kernel, by decide +kernel⟩⟩

theorem witness_KeyWaitCycle :
    State.reset.waiting = false ∧ (waitingCore.waiting = true ∧ waitingCore.keyNotify = false) ∧
    ∃ s : State, s.waiting = true ∧ s.keyNotify = true :=
  ⟨rfl, ⟨rfl, rfl⟩, ⟨{ waitingCore with keyNotify := true }, rfl, rfl⟩⟩

theorem witness_WaitingCoreIsAFixedPoint :
    waitingCore.waiting = true ∧ waitingCore.keyNotify = false ∧ Decodes waitingCore (.ldVxKey 1) :=
  ⟨rfl, rfl, decodes_waiting.1⟩

/-- A wait that begins, one that ends, and a step that finds no key delivered. -/
theorem witness_KeyWaitTransitions :
    (∃ s t : State, step s = .next t ∧ s.waiting = false ∧ t.waiting = true) ∧
    (∃ s t : State, step s = .next t ∧ s.waiting = true ∧ t.waiting = false) ∧
    (∃ s t : State, step s = .next t ∧ s.keyNotify = false) := by
  refine ⟨?_, ?_, ⟨State.reset, _, rfl, rfl⟩⟩
  · obtain ⟨t, ht, h⟩ := exists_of_passes
      (show passes (step (fetching 0xF10A)) (·.waiting) = true by decide +kernel)
    exact ⟨_, t, ht, rfl, h⟩
  · obtain ⟨t, ht, h⟩ := exists_of_passes
      (show passes (step { waitingCore with keyNotify := true }) (!·.waiting) = true by decide +kernel)
    exact ⟨_, t, ht, rfl, by simpa using h⟩

theorem witness_ResetLeavesTheResetState : ∃ t, perform .reset faultedCore = .next (t, .done) := ⟨_, rfl⟩

/-- An image that just fits, one that just does not, and a latch that is set. -/
theorem witness_LoadCopiesTheImage :
    (List.replicate 3584 (0x12 : Byte)).length ≤ 3584 ∧ 3584 < (List.replicate 3585 (0x12 : Byte)).length ∧
    State.reset.fault = none ∧ faultedCore.fault ≠ none := by
  rw [List.length_replicate, List.length_replicate]
  exact ⟨by decide, by decide, rfl, Option.some_ne_none _⟩

theorem witness_KeyEvents :
    (15 < (16 : Nat)) ∧ ((15 : Nat) < 16) ∧ waitingCore.waiting = true ∧ State.reset.waiting = false :=
  ⟨by decide, by decide, rfl, rfl⟩

theorem witness_HostStepSuppliesTheDraw :
    Decodes (fetching 0xC10F) (.rnd 1 0x0F) := ⟨rfl, by decide +kernel, by decide +kernel⟩

/-- Every operation but reset answers on a faulted core. -/
theorem witness_FaultedCoreKeepsItsState :
    ∀ op ∈ [HostOp.load [0x60, 0x01], .step 0, .setKey 2, .clearKey 2, .readFrame, .clearDrawFlag, .readSoundTimer,
      .readFault], op ≠ .reset ∧ ∃ t r, perform op faultedCore = .next (t, r) := by
  intro op h
  simp only [List.mem_cons, List.not_mem_nil, or_false] at h
  rcases h with rfl | rfl | rfl | rfl | rfl | rfl | rfl | rfl <;>
    exact ⟨HostOp.noConfusion, _, _, rfl⟩

theorem waitingCore_meets_inv : Inv waitingCore :=
  ⟨by decide +kernel, fun _ => rfl, by decide +kernel, fun k h => absurd h (Nat.not_lt_zero k)⟩

theorem waitingCore_waits_at_key : WaitsAtKeyInstruction waitingCore :=
  fun _ => ⟨decodes_waiting.1.2.1, 1, decodes_waiting.1.2.2⟩

theorem witness_StepKeepsTheInvariant : Inv waitingCore ∧ ∃ t, step waitingCore = .next t :=
  ⟨waitingCore_meets_inv, _, rfl⟩

/-- A core that does wait. -/
theorem witness_StepKeepsTheKeyWait :
    waitingCore.waiting = true ∧ WaitsAtKeyInstruction waitingCore ∧ ∃ t, step waitingCore = .next t :=
  ⟨rfl, waitingCore_waits_at_key, _, rfl⟩

/-- A key press while waiting, and a load while idle. -/
theorem witness_HostOperationsKeepTheInvariants :
    (Inv waitingCore ∧ KeepsH4 (.setKey 7) waitingCore ∧ WaitsAtKeyInstruction waitingCore ∧
      ∃ t r, perform (.setKey 7) waitingCore = .next (t, r)) ∧
    (KeepsH4 (.load [0x60]) State.reset ∧ ∃ t r, perform (.load [0x60]) State.reset = .next (t, r)) :=
  ⟨⟨waitingCore_meets_inv, fun _ h => HostOp.noConfusion h, waitingCore_waits_at_key, _, _, rfl⟩, ⟨fun _ _ => rfl, _, _, rfl⟩⟩

/-- A history with a load, a step and a key press. -/
theorem witness_ReachableStatesMeetTheInvariants :
    ∃ t u w : State, Reachable KeepsH4 w ∧ perform (.load [0xF1, 0x0A]) State.reset = .next (t, .done) ∧
      perform (.step 0) t = .next (u, .done) ∧ perform (.setKey 7) u = .next (w, .done) := by
  obtain ⟨u, hu, -⟩ := exists_of_passes
    (show passes ((State.reset.hostLoad [0xF1, 0x0A]).hostStep 0) (fun _ => true) = true by decide +kernel)
  have hs : perform (.step 0) (State.reset.hostLoad [0xF1, 0x0A]) = .next (u, .done) := by simp only [perform, hu]
  have h1 : Reachable KeepsH4 (State.reset.hostLoad [0xF1, 0x0A]) :=
    Reachable.after (op := .load [0xF1, 0x0A]) .reset (fun _ _ => rfl) rfl
  have h2 : Reachable KeepsH4 u := h1.after (op := .step 0) (fun _ h => HostOp.noConfusion h) hs
  exact ⟨_, u, _, h2.after (op := .setKey 7) (fun _ h => HostOp.noConfusion h) rfl, rfl, hs, rfl⟩

end Sys2Proof.Tests
end

section
/-! PROOFS. The state after reset (R24, R191, R241). -/

namespace Sys2Proof.Machine

/-! ### What an address reads as when memory lists nothing for it -/

theorem Memory.blank_font (k : Fin 80) : Memory.blank k.val = Config.font k := dif_pos k.isLt

theorem Memory.blank_above_font {a : Nat} (h : 0x050 ≤ a) : Memory.blank a = 0 := dif_neg (Nat.not_lt.mpr h)

/-! ### The core that the host's reset leaves -/

@[simp] theorem State.hostReset_toCoreState (s : State) : s.hostReset.toCoreState = CoreState.reset := rfl

/-- The host's reset leaves the same core whatever the state was (R191). -/
theorem toCoreState_of_perform_reset {s t : State} (h : perform .reset s = .next (t, .done)) :
    t.toCoreState = CoreState.reset := by
  cases h
  exact s.hostReset_toCoreState

/-! ### Reading a state whose core is the one after reset -/

section
variable {t : State} (h : t.toCoreState = CoreState.reset)
include h

theorem State.memRead_of_reset {a : Nat} (ha : a < 0x1000) : t.memRead a = .ok (Memory.blank a) := by
  have hmem : t.mem = [] := congrArg CoreState.mem h
  rw [State.memRead_inBounds ha, hmem, Memory.read]

theorem State.reg_of_reset (r : Reg) : t.reg r = 0 := by
  simp [State.reg, h, CoreState.reset]

theorem State.stack_of_reset (k : Nat) (hk : k < 16) : t.stack[k] = 0 := by
  simp [h, CoreState.reset]

theorem State.pixel_of_reset (px : Fin 64) (py : Fin 32) : t.fb.pixel px py = false := by
  have hfb : t.fb = Screen.clear := congrArg CoreState.fb h
  rw [hfb, Screen.pixel_clear]

theorem State.key_of_reset (k : Fin 16) : t.key k = false := by
  simp [State.key, h, CoreState.reset]

end

/-- Settles O46: either way the core is `CoreState.reset`, and each element is read from it. -/
theorem resetLeavesTheResetState : Obligations.ResetLeavesTheResetState := by
  intro s t ht
  have hcore : t.toCoreState = CoreState.reset := by
    rcases ht with rfl | hperform
    · exact State.reset_toCoreState
    · exact toCoreState_of_perform_reset hperform
  have hfont (k : Fin 80) : t.memRead k.val = .ok (Config.font k) := by
    rw [State.memRead_of_reset hcore (by omega), Memory.blank_font]
  have hzero (a : Nat) (hlo : 0x050 ≤ a) (hhi : a < 0x1000) : t.memRead a = .ok 0 := by
    rw [State.memRead_of_reset hcore hhi, Memory.blank_above_font hlo]
  refine ⟨hfont, hzero, State.reg_of_reset hcore, ?idx, ?pc, State.stack_of_reset hcore, ?sp, ?dt, ?st,
    State.pixel_of_reset hcore, ?drawFlag, State.key_of_reset hcore, ?waiting, ?keyValue, ?keyNotify, ?fault⟩
  all_goals rw [hcore]; rfl

end Sys2Proof.Machine
end

section
/-! PROOFS. Memory: one byte written and read back (R41, R42). -/

namespace Sys2Proof.Machine

/-! ### A state that differs from another in its memory only -/

/-- Memory is a part of its own: no other part reads it. -/
theorem changesOnly_mem (s : State) (m : Memory) : ChangesOnly [.mem] s { s with mem := m } := by
  intro p hp
  cases p
  case mem => exact absurd (List.mem_singleton.2 rfl) hp
  all_goals simp [Part.same, State.reg, State.key]

/-! ### What a read returns after a write -/

theorem State.memRead_write_same (s : State) {a : Nat} (v : Byte) (ha : a < 0x1000) :
    State.memRead { s with mem := Memory.write s.mem a v } a = .ok v := by
  rw [State.memRead_inBounds ha, Memory.read_write, if_pos rfl]

/-- In bounds the byte is kept; out of bounds the fault is the same before and after. -/
theorem State.memRead_write_ne (s : State) {a b : Nat} (v : Byte) (hb : b ≠ a) :
    State.memRead { s with mem := Memory.write s.mem a v } b = s.memRead b := by
  rcases Nat.lt_or_ge b 0x1000 with hlt | hge
  · rw [State.memRead_inBounds hlt, State.memRead_inBounds hlt, Memory.read_write, if_neg hb]
  · rw [State.memRead_outOfBounds hge, State.memRead_outOfBounds hge]

/-- Settles O20: below 0x1000 the write is a `Memory.write` and nothing else; from 0x1000 up both accesses raise. -/
theorem readAfterWrite : Obligations.ReadAfterWrite := by
  intro s a v
  refine ⟨fun hlt => ?inBounds, fun hge => ?outOfBounds⟩
  case inBounds =>
    exact ⟨_, State.memWrite_inBounds v hlt, s.memRead_write_same v hlt, fun _ => s.memRead_write_ne v,
      changesOnly_mem s _⟩
  case outOfBounds => exact ⟨State.memWrite_outOfBounds v hge, State.memRead_outOfBounds hge⟩

end Sys2Proof.Machine
end

section
/-! PROOFS. The sequencer: fetch, the sentinel, what a step does to the latch, the timers and `pc` (R81 to R88). -/

namespace Sys2Proof.Machine

/-! ### Fetch -/

/-- R46: the first byte is the high one. -/
theorem toNat_wordOfBytes (hi lo : Byte) : (wordOfBytes hi lo).toNat = 256 * hi.toNat + lo.toNat := by
  rw [wordOfBytes, BitVec.toNat_append, ← Nat.shiftLeft_add_eq_or_of_lt lo.isLt, Nat.shiftLeft_eq]
  omega

theorem State.fetch_inBounds {s : State} (h : s.pc.toNat + 1 < 0x1000) : s.fetch = .ok s.wordAtPc := by
  rw [State.fetch_eq, if_pos h, State.wordAtPc]

theorem State.fetch_of_memRead {s : State} {hi lo : Byte} (hhi : s.memRead s.pc.toNat = .ok hi)
    (hlo : s.memRead (s.pc.toNat + 1) = .ok lo) : s.fetch = .ok (wordOfBytes hi lo) := by
  simp only [State.fetch, hhi, hlo]

/-! ### A step from what its phases do -/

theorem step_of_faulted {s : State} {f : Fault} (h : s.fault = some f) : step s = .next s := by
  simp only [step, cycle, h]

/-- R81, R217: a fetch out of bounds raises its first address out of bounds on the state before the step. -/
theorem raises_of_fetch_outOfBounds {s : State} (hf : s.fault = none) (h : 0x1000 ≤ s.pc.toNat + 1) :
    Raises (step s) s (.memOutOfBounds (max s.pc.toNat 0x1000)) := by
  have hfetch : s.fetch = .error (.memOutOfBounds (max s.pc.toNat 0x1000)) := by
    rw [State.fetch_eq, if_neg (by omega)]
  simp only [Raises, step, cycle, hf, hfetch, State.raise_of_none _ hf]

/-- A step at a word in bounds that decodes is the execute phase of the instruction and the end of the cycle (R90). -/
theorem exec_of_step {s t : State} {i : Instr} (hf : s.fault = none) (hpc : s.pc.toNat + 1 < 0x1000)
    (hd : decodeWord s.wordAtPc = some i) (h : step s = .next t) :
    ∃ u, exec i s = .next u ∧ t = endOfCycle i s u := by
  have hw := State.fetch_inBounds hpc
  rcases step_cases h with ⟨hf', -⟩ | ⟨-, f, he, -⟩ | ⟨-, w, he, hd', -⟩ | ⟨-, w, j, u, he, hd', hu, ht⟩
  · exact absurd hf hf'
  · cases hw.symm.trans he
  · cases hw.symm.trans he
    cases hd.symm.trans hd'
  · cases hw.symm.trans he
    cases hd.symm.trans hd'
    exact ⟨u, hu, ht⟩

/-! ### The end of a cycle -/

/-- R86: the instructions whose cycle leaves the timers. -/
theorem decays_eq_false_iff {i : Instr} {s : State} :
    decays i s = false ↔ i = .halt0 ∨ ((∃ x, i = .ldVxKey x) ∧ s.waiting = true) := by
  cases i <;> simp [decays]

theorem endOfCycle_of_fault {i : Instr} {s u : State} (h : u.fault ≠ none) : endOfCycle i s u = u := by
  simp [endOfCycle, h]

theorem endOfCycle_of_not_decays {i : Instr} {s : State} (u : State) (h : decays i s = false) :
    endOfCycle i s u = u := by
  simp [endOfCycle, h]

theorem endOfCycle_of_decays {i : Instr} {s u : State} (hu : u.fault = none) (h : decays i s ≠ false) :
    endOfCycle i s u = u.timerDecay := by
  simp [endOfCycle, hu, h]

@[simp] theorem endOfCycle_pc (i : Instr) (s u : State) : (endOfCycle i s u).pc = u.pc := by
  rcases endOfCycle_cases i s u with h | h <;> simp [h]

/-- R16: one count down, as natural numbers. -/
theorem toNat_countDown (t : Byte) : (countDown t).toNat = t.toNat - 1 := by
  unfold countDown
  split
  · next h => rw [h]; rfl
  · next h => bv_omega

/-! ### What a step that raises a fault does -/

/-- R88: whichever phase raises, the step reaches the state before it with the fault raised. -/
theorem step_raises {s t : State} (hf : s.fault = none) (h : step s = .next t) (ht : t.fault ≠ none) :
    ∃ f, t = s.raise f := by
  rcases step_cases h with ⟨hf', -⟩ | ⟨-, f, -, rfl⟩ | ⟨-, w, -, -, rfl⟩ | ⟨-, w, i, u, -, -, hu, rfl⟩
  · exact absurd hf hf'
  · exact ⟨f, rfl⟩
  · exact ⟨_, rfl⟩
  · rw [endOfCycle_fault] at ht
    rw [endOfCycle_of_fault ht]
    exact (exec_raises_or_completes hu).resolve_right fun hkept => ht (hkept.trans hf)

/-! ### What an execute phase that completes leaves in `pc` and the timers -/

theorem addressOf_eq_ofNat (nnn : BitVec 12) : addressOf nnn = BitVec.ofNat 16 nnn.toNat :=
  BitVec.eq_of_toNat_eq (by simp only [addressOf_toNat, BitVec.toNat_ofNat]; have := nnn.isLt; omega)

theorem offsetTarget_eq_ofNat (nnn : BitVec 12) (v : Byte) :
    offsetTarget nnn v = BitVec.ofNat 16 (nnn.toNat + v.toNat) :=
  BitVec.eq_of_toNat_eq (by
    simp only [offsetTarget_toNat, BitVec.toNat_ofNat]; have := nnn.isLt; have := v.isLt; omega)

/-- `DT` after the execute phase of `i` from `s` (R174): only `FX15` writes it. -/
def dtExecuted (i : Instr) (s : State) : Byte :=
  match i with
  | .ldDtVx x => s.reg x
  | _ => s.dt

/-- `ST` after the execute phase of `i` from `s` (R175): only `FX18` writes it. -/
def stExecuted (i : Instr) (s : State) : Byte :=
  match i with
  | .ldStVx x => s.reg x
  | _ => s.st

theorem dtExecuted_of_ne {i : Instr} (s : State) (h : ∀ x, i ≠ .ldDtVx x) : dtExecuted i s = s.dt := by
  cases i
  case ldDtVx x => exact absurd rfl (h x)
  all_goals rfl

theorem stExecuted_of_ne {i : Instr} (s : State) (h : ∀ x, i ≠ .ldStVx x) : stExecuted i s = s.st := by
  cases i
  case ldStVx x => exact absurd rfl (h x)
  all_goals rfl

/-- `u` has the `pc` and the timers that the execute phase of `i` leaves when it completes from `s`. -/
structure CompletesAs (i : Instr) (s u : State) : Prop where
  pc : u.pc ∈ pcChoices i s
  dt : u.dt = dtExecuted i s
  st : u.st = stExecuted i s

/-- An execute phase raises a fault on the state it started from, or leaves `pc` as its class says (R84) and the timers
as its instruction writes them. -/
theorem exec_raises_or_completesAs {i : Instr} {s u : State} (h : exec i s = .next u) :
    (∃ f, u = s.raise f) ∨ CompletesAs i s u := by
  cases i
  case ret =>
    rw [exec_ret_eq] at h; split at h <;> cases h
    exacts [.inr ⟨by simp [pcChoices, *], rfl, rfl⟩, .inl ⟨_, rfl⟩]
  case call =>
    rw [exec_call_eq] at h; split at h <;> cases h
    exacts [.inr ⟨by simp [pcChoices, addressOf_eq_ofNat], rfl, rfl⟩, .inl ⟨_, rfl⟩]
  case skp =>
    rw [exec_skp_eq] at h; split at h <;> cases h
    exacts [.inr ⟨by simp [pcChoices, *], rfl, rfl⟩, .inl ⟨_, rfl⟩]
  case sknp x =>
    rw [exec_sknp_eq] at h; split at h <;> cases h
    · next hx => exact .inr ⟨by cases hk : s.key ⟨_, hx⟩ <;> simp [pcChoices, hx, hk], rfl, rfl⟩
    · exact .inl ⟨_, rfl⟩
  case drw =>
    rw [exec_drw_eq] at h; split at h <;> cases h
    exacts [.inr ⟨by simp [pcChoices, State.drawSprite], rfl, rfl⟩, .inl ⟨_, rfl⟩]
  case storeBcd =>
    rw [exec_storeBcd_eq] at h; split at h <;> cases h
    exacts [.inr ⟨by simp [pcChoices], rfl, rfl⟩, .inl ⟨_, rfl⟩]
  case storeRegs =>
    rw [exec_storeRegs_eq] at h; split at h <;> cases h
    exacts [.inr ⟨by simp [pcChoices], rfl, rfl⟩, .inl ⟨_, rfl⟩]
  case loadRegs =>
    rw [exec_loadRegs_eq, State.setRegsFrom_eq] at h; split at h <;> cases h
    exacts [.inr ⟨by simp [pcChoices], rfl, rfl⟩, .inl ⟨_, rfl⟩]
  case ldVxKey =>
    simp only [exec, execLdVxKey] at h
    repeat' split at h
    all_goals cases h; exact .inr ⟨by simp [pcChoices, *], rfl, rfl⟩
  case jp => cases h; exact .inr ⟨by simp [pcChoices, addressOf_eq_ofNat], rfl, rfl⟩
  case jpV0 => cases h; exact .inr ⟨by simp [pcChoices, offsetTarget_eq_ofNat], rfl, rfl⟩
  all_goals cases h; exact .inr ⟨by simp [pcChoices], rfl, rfl⟩

/-- A step at a word in bounds that decodes, if it raises no fault, is an execute phase that completes and the end of
the cycle. -/
theorem step_completes {s t : State} {i : Instr} (hf : s.fault = none) (hpc : s.pc.toNat + 1 < 0x1000)
    (hd : decodeWord s.wordAtPc = some i) (h : step s = .next t) (ht : t.fault = none) :
    ∃ u, CompletesAs i s u ∧ u.fault = none ∧ t = endOfCycle i s u := by
  obtain ⟨u, hu, rfl⟩ := exec_of_step hf hpc hd h
  rw [endOfCycle_fault] at ht
  rcases exec_raises_or_completesAs hu with ⟨f, rfl⟩ | hc
  · simp [hf] at ht
  · exact ⟨u, hc, ht, rfl⟩

/-! ### The obligations -/

/-- Settles O12: the step raised a fault `g` on the state before it, and `f` is what its latch then holds. -/
theorem raisingStepChangesOnlyTheLatch : Obligations.RaisingStepChangesOnlyTheLatch := by
  intro s t f hf h ht
  obtain ⟨g, rfl⟩ := step_raises hf h (by simp [ht])
  rw [State.raise_of_none g hf] at ht ⊢
  cases ht
  rfl

/-- Settles O14: a raised fault leaves the timers, and otherwise whether the cycle decays decides. -/
theorem timersCountInstructions : Obligations.TimersCountInstructions := by
  intro s t i hf hpc hd h
  by_cases ht : t.fault = none
  case neg =>
    obtain ⟨f, rfl⟩ := step_raises hf h ht
    exact ⟨fun _ => ⟨rfl, rfl⟩, fun ht' => absurd ht' ht⟩
  case pos =>
    obtain ⟨u, ⟨-, hdt, hst⟩, hu, rfl⟩ := step_completes hf hpc hd h ht
    constructor
    · intro hraisedOrKept
      have hkeep := hraisedOrKept.resolve_left (not_not_intro ht)
      rw [endOfCycle_of_not_decays u (decays_eq_false_iff.2 hkeep), hdt, hst]
      rcases hkeep with rfl | ⟨⟨x, rfl⟩, -⟩ <;> exact ⟨rfl, rfl⟩
    · intro _ hhalt hkey
      have hdecays : decays i s ≠ false := fun hno => (decays_eq_false_iff.1 hno).elim hhalt hkey
      rw [endOfCycle_of_decays hu hdecays, State.timerDecay_dt, State.timerDecay_st, toNat_countDown,
        toNat_countDown, hdt, hst]
      refine ⟨?writesDt, fun hi => by rw [dtExecuted_of_ne s hi], ?writesSt,
        fun hi => by rw [stExecuted_of_ne s hi]⟩
      all_goals rintro x rfl; rfl

/-- Settles O15: a raised fault leaves `pc`, the execute phase sets it, and the end of the cycle does not touch it. -/
theorem pcFollowsItsClass : Obligations.PcFollowsItsClass := by
  intro s t i hf hpc hd h
  constructor
  · intro ht
    obtain ⟨f, rfl⟩ := step_raises hf h ht
    rfl
  · intro ht
    obtain ⟨u, hc, -, rfl⟩ := step_completes hf hpc hd h ht
    rw [endOfCycle_pc]
    exact hc.pc

/-- Settles O8: the latch is looked at before anything else. -/
theorem faultedCoreDoesNothing : Obligations.FaultedCoreDoesNothing := fun _ _ h => step_of_faulted h

/-- Settles O9: the two reads of a fetch, and the first of them that is out of bounds. -/
theorem fetchIsBigEndianAndBoundsChecked : Obligations.FetchIsBigEndianAndBoundsChecked := by
  intro s
  refine ⟨fun hpc => ?inBounds, fun hf hpc => ?bothOut, fun hf hpc => ?secondOut⟩
  case inBounds =>
    exact ⟨_, _, _, State.memRead_inBounds (by omega), State.memRead_inBounds hpc, State.fetch_inBounds hpc,
      toNat_wordOfBytes _ _⟩
  case bothOut =>
    have hraises := raises_of_fetch_outOfBounds hf (by omega)
    rwa [Nat.max_eq_left hpc] at hraises
  case secondOut =>
    have hraises := raises_of_fetch_outOfBounds hf (by omega)
    rwa [Nat.max_eq_right (by omega)] at hraises

theorem decodeWord_zero : decodeWord (wordOfBytes 0 0) = some .halt0 := by decide

/-- R82: the sentinel's cycle does not decay the timers, so it ends in the state it began in. -/
theorem step_of_sentinel {s : State} (hhi : s.memRead s.pc.toNat = .ok 0)
    (hlo : s.memRead (s.pc.toNat + 1) = .ok 0) : step s = .next s := by
  cases hf : s.fault with
  | some f => exact step_of_faulted hf
  | none =>
    rw [step_of_decoded (u := s) hf (State.fetch_of_memRead hhi hlo) decodeWord_zero rfl,
      endOfCycle_of_not_decays s rfl]

/-- Settles O10: a final state has the sentinel at `pc`. -/
theorem sentinelChangesNothing : Obligations.SentinelChangesNothing := by
  refine ⟨decodeWord_zero, fun _ => rfl, fun _ => step_of_sentinel, ?_⟩
  rintro s ⟨-, -, -, hhi, hlo⟩
  exact step_of_sentinel hhi hlo

end Sys2Proof.Machine
end

section
/-! PROOFS. The display instructions: the sprite, its drawing, the cleared screen (R100 to R104). -/

namespace Sys2Proof.Machine

/-! ### The words of the two instructions (R65) -/

theorem encodedAs_cls : EncodedAs .cls 0x00E0 := by
  unfold EncodedAs
  decide

theorem decodeWord_wordXY_drw (x y : Reg) (n : BitVec 4) : decodeWord (wordXY 0xD x y n) = some (.drw x y n) := by
  simp [decodeWord]

theorem encodedAs_drw (x y : Reg) (n : BitVec 4) :
    EncodedAs (.drw x y n) (0xD000 + 0x100 * x.val + 0x10 * y.val + n.toNat) := by
  have hword : 0xD000 + 0x100 * x.val + 0x10 * y.val + n.toNat = (wordXY 0xD x y n).toNat :=
    (wordXY_toNat 0xD x y n).symm
  rw [EncodedAs, hword, BitVec.ofNat_toNat, BitVec.setWidth_eq, decodeWord_wordXY_drw]

/-! ### A change of screen -/

theorem State.changesOnly_setScreen_advance (s : State) (f : Screen) :
    ChangesOnly [.fb, .drawFlag, .pc] s (s.setScreen f).advance := by
  intro p hp
  cases p
  case fb | drawFlag | pc => simp at hp
  case mem => exact State.memRead_congr rfl
  case keys => exact State.key_congr rfl
  all_goals simp [Part.same]

/-! ### The pixels under the sprite of `DXYN` -/

/-- The pixels under the set bits of the `N` rows at `I`, at column `x[X]` and row `x[Y]` (R101). -/
def State.sprite (s : State) (x y : Reg) (n : BitVec 4) : List (Fin 64 × Fin 32) :=
  spritePixels (s.reg x) (s.reg y) 0 (s.bytesAtIdx n.toNat)

theorem State.mem_sprite {s : State} {x y : Reg} {n : BitVec 4} {p : Fin 64 × Fin 32} :
    p ∈ s.sprite x y n ↔ Covers s x y n p.1 p.2 := by
  simp only [State.sprite, Covers, mem_spritePixels, State.length_bytesAtIdx, State.getElem_bytesAtIdx, Prod.ext_iff,
    Fin.ext_iff, column, row, Nat.zero_add, exists_prop]

/-- The sprite is settled by memory, `I` and the two coordinate registers. -/
theorem State.sprite_congr {s u : State} {x y : Reg} (n : BitVec 4) (hmem : u.mem = s.mem) (hidx : u.idx = s.idx)
    (hx : u.reg x = s.reg x) (hy : u.reg y = s.reg y) : u.sprite x y n = s.sprite x y n := by
  simp only [State.sprite, State.bytesAtIdx, hmem, hidx, hx, hy]

/-! ### The state that `DXYN` reaches -/

/-- The state after `DXYN` with its rows in memory (R101). -/
def State.drawn (s : State) (x y : Reg) (n : BitVec 4) : State :=
  s.drawSprite (s.reg x) (s.reg y) (s.bytesAtIdx n.toNat)

/-- With `N = 0`, or the last row in memory, `DXYN` completes. -/
theorem exec_drw_inBounds {s : State} {n : BitVec 4} (x y : Reg)
    (h : n.toNat = 0 ∨ s.idx.toNat + n.toNat - 1 < 0x1000) : exec (.drw x y n) s = .next (s.drawn x y n) := by
  rw [exec_drw_eq, if_pos (by omega), State.drawn]

/-- A last row outside memory raises the first address out of bounds (R101, R211). -/
theorem raises_of_drw_outOfBounds {s : State} {n : BitVec 4} (x y : Reg) (hf : s.fault = none) (hn : 1 ≤ n.toNat)
    (h : 0x1000 ≤ s.idx.toNat + n.toNat - 1) :
    Raises (exec (.drw x y n) s) s (.memOutOfBounds (max s.idx.toNat 0x1000)) := by
  rw [Raises, exec_drw_eq, if_neg (by omega), State.raise_of_none _ hf]

/-- At most fifteen rows, so no two bits of the sprite meet on one pixel. -/
theorem State.length_bytesAtIdx_le (s : State) (n : BitVec 4) : (s.bytesAtIdx n.toNat).length ≤ 32 := by
  have := n.isLt
  rw [State.length_bytesAtIdx]
  omega

section
variable (s : State) (x y : Reg) (n : BitVec 4)

theorem State.pixel_drawn (px : Fin 64) (py : Fin 32) :
    (s.drawn x y n).fb.pixel px py = (s.fb.pixel px py ^^ decide ((px, py) ∈ s.sprite x y n)) :=
  pixel_drawRows _ _ _ s.fb false (s.length_bytesAtIdx_le n) px py

theorem State.pixel_drawn_of_covers {px : Fin 64} {py : Fin 32} (h : Covers s x y n px py) :
    (s.drawn x y n).fb.pixel px py = !s.fb.pixel px py := by
  rw [State.pixel_drawn, decide_eq_true (State.mem_sprite.2 h), Bool.xor_true]

theorem State.pixel_drawn_of_not_covers {px : Fin 64} {py : Fin 32} (h : ¬Covers s x y n px py) :
    (s.drawn x y n).fb.pixel px py = s.fb.pixel px py := by
  rw [State.pixel_drawn, decide_eq_false (mt State.mem_sprite.1 h), Bool.xor_false]

/-- VF is written after the coordinates are read, and holds the collision flag. -/
theorem State.reg_drawn (r : Reg) :
    (s.drawn x y n).reg r =
      if r = .vf then flag ((s.sprite x y n).any fun p => s.fb.pixel p.1 p.2) else s.reg r := by
  simp only [State.drawn, State.drawSprite, State.advance_reg, State.setScreen_reg, State.reg_setReg, State.sprite,
    collision_drawRows _ _ _ s.fb (s.length_bytesAtIdx_le n)]

/-- A covered pixel that was 1 is what a collision is (R101). -/
theorem State.collision_iff :
    ((s.sprite x y n).any fun p => s.fb.pixel p.1 p.2) = true ↔
      ∃ px py, Covers s x y n px py ∧ s.fb.pixel px py = true := by
  simp only [List.any_eq_true, State.mem_sprite, Prod.exists]

theorem State.reg_vf_drawn_eq_one_iff :
    (s.drawn x y n).reg .vf = 1 ↔ ∃ px py, Covers s x y n px py ∧ s.fb.pixel px py = true := by
  rw [State.reg_drawn, if_pos rfl, flag_eq_one, State.collision_iff]

theorem State.reg_vf_drawn_eq_zero_iff :
    (s.drawn x y n).reg .vf = 0 ↔ ¬∃ px py, Covers s x y n px py ∧ s.fb.pixel px py = true := by
  rw [State.reg_drawn, if_pos rfl, flag_eq_zero, ← State.collision_iff, Bool.not_eq_true]

/-- Drawing is a write of VF and then a change of screen. -/
theorem State.changesOnly_drawn : ChangesOnly [.regs, .fb, .drawFlag, .pc] s (s.drawn x y n) := by
  intro p hp
  have hscreen : p.same (s.setReg .vf _) (s.drawn x y n) :=
    State.changesOnly_setScreen_advance _ _ p fun h => hp (List.mem_cons_of_mem _ h)
  cases p
  case regs => exact absurd List.mem_cons_self hp
  all_goals exact hscreen

end

/-! ### The obligations -/

/-- Settles O23: in bounds the next state is `State.drawn`, out of bounds it raises. -/
theorem drwFlipsTheCoveredPixels : Obligations.DrwFlipsTheCoveredPixels := by
  intro s x y n
  refine ⟨encodedAs_drw x y n, fun h => ?_, raises_of_drw_outOfBounds x y⟩
  exact ⟨s.drawn x y n, exec_drw_inBounds x y h, fun _ _ => s.pixel_drawn_of_covers x y n,
    fun _ _ => s.pixel_drawn_of_not_covers x y n, (s.reg_vf_drawn_eq_one_iff x y n).2,
    (s.reg_vf_drawn_eq_zero_iff x y n).2, rfl, rfl, fun r hr => by rw [State.reg_drawn, if_neg hr],
    s.changesOnly_drawn x y n⟩

/-- Settles O24: both draws flip the same sprite, so each pixel is flipped twice or never, and the second draw finds a
covered pixel set exactly if the first found it clear. -/
theorem drawingTwiceRestoresTheScreen : Obligations.DrawingTwiceRestoresTheScreen := by
  intro s t u w x y n h ht hfb hmem hidx hx hy hw
  have hsprite : u.sprite x y n = s.sprite x y n := State.sprite_congr n hmem hidx hx hy
  cases (exec_drw_inBounds x y h).symm.trans ht
  cases (exec_drw_inBounds x y (hidx ▸ h)).symm.trans hw
  constructor
  · intro px py
    rw [State.pixel_drawn, hfb, State.pixel_drawn, hsprite, Bool.xor_assoc, Bool.xor_self, Bool.xor_false]
  · have hcovers (px : Fin 64) (py : Fin 32) : Covers u x y n px py ↔ Covers s x y n px py := by
      rw [← State.mem_sprite (p := (px, py)), hsprite, State.mem_sprite]
    rw [State.reg_vf_drawn_eq_one_iff]
    refine exists_congr fun px => exists_congr fun py => ?_
    rw [hcovers]
    refine and_congr_right fun hc => ?_
    rw [hfb, State.pixel_drawn_of_covers s x y n hc, Bool.not_eq_true']

/-- Settles O22: the next state is the state with a clear screen, moved on. -/
theorem clsClearsTheScreen : Obligations.ClsClearsTheScreen :=
  ⟨encodedAs_cls, fun s =>
    ⟨(s.setScreen Screen.clear).advance, rfl, Screen.pixel_clear, rfl, rfl, s.changesOnly_setScreen_advance _⟩⟩

end Sys2Proof.Machine
end

section
/-! PROOFS. Control transfer: jumps, the call stack, the skips on registers (R110 to R119). -/

namespace Sys2Proof.Machine

/-! ### The words of the instructions (R65) -/

/-- A word is known by its value as a natural number. -/
theorem encodedAs_of_word {i : Instr} {w : Word} {n : Nat} (hd : decodeWord w = some i) (hn : w.toNat = n) :
    EncodedAs i n := by
  rw [EncodedAs, ← hn, BitVec.ofNat_toNat, BitVec.setWidth_eq, hd]

theorem encodedAs_ret : EncodedAs .ret 0x00EE := by
  unfold EncodedAs
  decide

section
variable (nnn : BitVec 12) (x y : Reg) (nn : Byte)

theorem encodedAs_jp : EncodedAs (.jp nnn) (0x1000 + nnn.toNat) :=
  encodedAs_of_word (w := wordNNN 0x1 nnn) (by simp [decodeWord]) (wordNNN_toNat _ _)

theorem encodedAs_jpV0 : EncodedAs (.jpV0 nnn) (0xB000 + nnn.toNat) :=
  encodedAs_of_word (w := wordNNN 0xB nnn) (by simp [decodeWord]) (wordNNN_toNat _ _)

theorem encodedAs_call : EncodedAs (.call nnn) (0x2000 + nnn.toNat) :=
  encodedAs_of_word (w := wordNNN 0x2 nnn) (by simp [decodeWord]) (wordNNN_toNat _ _)

theorem encodedAs_seImm : EncodedAs (.seImm x nn) (0x3000 + 0x100 * x.val + nn.toNat) :=
  encodedAs_of_word (w := wordXNN 0x3 x nn) (by simp [decodeWord]) (wordXNN_toNat _ _ _)

theorem encodedAs_sneImm : EncodedAs (.sneImm x nn) (0x4000 + 0x100 * x.val + nn.toNat) :=
  encodedAs_of_word (w := wordXNN 0x4 x nn) (by simp [decodeWord]) (wordXNN_toNat _ _ _)

theorem encodedAs_seReg : EncodedAs (.seReg x y) (0x5000 + 0x100 * x.val + 0x10 * y.val) :=
  encodedAs_of_word (w := wordXY 0x5 x y 0x0) (by simp [decodeWord]) (wordXY_toNat _ _ _ _)

theorem encodedAs_sneReg : EncodedAs (.sneReg x y) (0x9000 + 0x100 * x.val + 0x10 * y.val) :=
  encodedAs_of_word (w := wordXY 0x9 x y 0x0) (by simp [decodeWord]) (wordXY_toNat _ _ _ _)

end

/-- The call's own word, as `StackOverflow` records it (R212). -/
theorem wordNNN_call_eq_add (nnn : BitVec 12) : wordNNN 0x2 nnn = 0x2000 + nnn.zeroExtend 16 := by
  have hop : (0x2 : BitVec 4).toNat = 2 := rfl
  have hbase : (0x2000 : Word).toNat = 0x2000 := rfl
  apply BitVec.eq_of_toNat_eq
  rw [wordNNN_toNat, BitVec.toNat_add, ← addressOf, addressOf_toNat, hop, hbase]
  omega

/-! ### What a change of the stack, `SP` and `pc` leaves unchanged -/

/-- A listed part that reads as before need not be listed. -/
theorem ChangesOnly.of_same {ps qs : List Part} {s t : State} (h : ChangesOnly ps s t)
    (hps : ∀ p ∈ ps, p ∉ qs → p.same s t) : ChangesOnly qs s t := by
  intro p hq
  by_cases hp : p ∈ ps
  · exact hps p hp hq
  · exact h p hp

theorem changesOnly_stack_sp_pc (s : State) (stack : Vector Word 16) (sp : Fin 17) (pc : Word) :
    ChangesOnly [.stack, .sp, .pc] s { s with stack := stack, sp := sp, pc := pc } := by
  intro p hp
  cases p
  case stack | sp | pc => simp at hp
  case mem => exact State.memRead_congr rfl
  case keys => exact State.key_congr rfl
  all_goals simp [Part.same, State.reg]

theorem changesOnly_sp_pc (s : State) (sp : Fin 17) (pc : Word) :
    ChangesOnly [.pc, .sp] s { s with sp := sp, pc := pc } :=
  (changesOnly_stack_sp_pc s s.stack sp pc).of_same (by simp [Part.same])

theorem State.changesOnly_jump (s : State) (target : Word) : ChangesOnly [.pc] s (s.jump target) :=
  (changesOnly_sp_pc s s.sp target).of_same (by simp [Part.same])

/-! ### The call stack (R110, R112) -/

/-- The state that a call to `nnn` reaches while an entry is free. -/
def State.called (s : State) (nnn : BitVec 12) (h : s.sp.val < 16) : State :=
  { s with stack := s.stack.set s.sp.val (s.pc + 2), sp := ⟨s.sp.val + 1, by omega⟩, pc := addressOf nnn }

/-- The state that a return reaches while an entry is in use. -/
def State.returned (s : State) (h : 0 < s.sp.val) : State :=
  { s with sp := ⟨s.sp.val - 1, by omega⟩, pc := s.stack[s.sp.val - 1]'(by omega) }

theorem exec_call_of_free {s : State} (nnn : BitVec 12) (h : s.sp.val < 16) :
    exec (.call nnn) s = .next (s.called nnn h) := by
  rw [exec_call_eq, dif_pos h, State.called]

theorem exec_ret_of_inUse {s : State} (h : 0 < s.sp.val) : exec .ret s = .next (s.returned h) := by
  rw [exec_ret_eq, dif_pos h, State.returned]

theorem raises_of_call_full {s : State} (nnn : BitVec 12) (hf : s.fault = none) (h : s.sp.val = 16) :
    Raises (exec (.call nnn) s) s (.stackOverflow (0x2000 + nnn.zeroExtend 16)) := by
  rw [Raises, exec_call_eq, dif_neg (by omega), State.raise_of_none _ hf, wordNNN_call_eq_add]

theorem raises_of_ret_empty {s : State} (hf : s.fault = none) (h : s.sp.val = 0) :
    Raises (exec .ret s) s (.stackUnderflow 0x00EE) := by
  rw [Raises, exec_ret_eq, dif_neg (by omega), State.raise_of_none _ hf]

/-- The cell at the old `SP` holds the return address. -/
theorem State.stack_called_top (s : State) (nnn : BitVec 12) (h : s.sp.val < 16) :
    (s.called nnn h).stack[s.sp.val] = s.pc + 2 :=
  Vector.getElem_set_self h

theorem State.stack_called_ne (s : State) (nnn : BitVec 12) (h : s.sp.val < 16) {k : Nat} (hk : k < 16)
    (hne : k ≠ s.sp.val) : (s.called nnn h).stack[k] = s.stack[k] :=
  Vector.getElem_set_ne h hk hne.symm

/-- A return takes the cell below `SP`, wherever `SP` is known to be. -/
theorem State.pc_returned {u : State} {k : Nat} (hk : k < 16) (hsp : u.sp.val = k + 1) (h : 0 < u.sp.val) :
    (u.returned h).pc = u.stack[k] := by
  simp [State.returned, hsp]

/-! ### Skips (R118) -/

theorem State.skipsIf_skip (s : State) {b : Bool} {c : Prop} (h : b = true ↔ c) : SkipsIf c s (s.skip b) := by
  refine ⟨fun hc => ?taken, fun hc => ?notTaken, s.changesOnly_jump _⟩
  case taken => rw [State.skip, if_pos (h.2 hc)]
  case notTaken => rw [State.skip, if_neg (mt h.1 hc)]

/-! ### The obligations -/

/-- Settles O28: the return takes the cell that the call wrote, the one at the old `SP`; the cells below it were not
written. -/
theorem callThenReturnRoundTrips : Obligations.CallThenReturnRoundTrips := by
  intro s t u w nnn h ht hstack hsp hw
  cases (exec_call_of_free nnn h).symm.trans ht
  have hspu : u.sp.val = s.sp.val + 1 := congrArg Fin.val hsp
  have hinUse : 0 < u.sp.val := by omega
  cases (exec_ret_of_inUse hinUse).symm.trans hw
  refine ⟨?pc, ?sp, fun k hk => ?entries⟩
  case pc =>
    calc (u.returned hinUse).pc
      _ = u.stack[s.sp.val] := State.pc_returned h hspu hinUse
      _ = (s.called nnn h).stack[s.sp.val] := by rw [hstack]
      _ = s.pc + 2 := s.stack_called_top nnn h
  case sp =>
    apply Fin.ext
    change u.sp.val - 1 = s.sp.val
    omega
  case entries =>
    change u.stack[k] = s.stack[k]
    rw [hstack, s.stack_called_ne nnn h (by omega) (by omega)]

/-- Settles O25: with an entry in use the next state is `State.returned`, else it raises. -/
theorem retPopsThePc : Obligations.RetPopsThePc :=
  ⟨encodedAs_ret, fun s =>
    ⟨fun h => ⟨s.returned h, exec_ret_of_inUse h, rfl, rfl, changesOnly_sp_pc s _ _⟩, raises_of_ret_empty⟩⟩

/-- Settles O26: both are a jump, to the address or to the sum, which 16 bits hold. -/
theorem jumpsSetThePc : Obligations.JumpsSetThePc := by
  intro s nnn
  refine ⟨encodedAs_jp nnn, encodedAs_jpV0 nnn, ?jp, ?jpV0⟩
  case jp => exact ⟨s.jump (addressOf nnn), rfl, addressOf_toNat nnn, s.changesOnly_jump _⟩
  case jpV0 => exact ⟨s.jump (offsetTarget nnn (s.reg 0)), rfl, offsetTarget_toNat nnn _, s.changesOnly_jump _⟩

/-- Settles O27: with an entry free the next state is `State.called`, else it raises. -/
theorem callPushesTheReturnAddress : Obligations.CallPushesTheReturnAddress := by
  intro s nnn
  refine ⟨encodedAs_call nnn, fun h => ?free, raises_of_call_full nnn⟩
  exact ⟨s.called nnn h, exec_call_of_free nnn h, s.stack_called_top nnn h, fun _ => s.stack_called_ne nnn h, rfl,
    addressOf_toNat nnn, changesOnly_stack_sp_pc s _ _ _⟩

/-- Settles O29: each is `Skip` of the Boolean test that its condition names. -/
theorem skipsOnRegisters : Obligations.SkipsOnRegisters := by
  intro s x y nn
  refine ⟨encodedAs_seImm x nn, encodedAs_sneImm x nn, encodedAs_seReg x y, encodedAs_sneReg x y, ?seImm, ?sneImm,
    ?seReg, ?sneReg⟩
  case seImm => exact ⟨s.skip (s.reg x == nn), rfl, s.skipsIf_skip beq_iff_eq⟩
  case sneImm => exact ⟨s.skip (s.reg x != nn), rfl, s.skipsIf_skip bne_iff_ne⟩
  case seReg => exact ⟨s.skip (s.reg x == s.reg y), rfl, s.skipsIf_skip beq_iff_eq⟩
  case sneReg => exact ⟨s.skip (s.reg x != s.reg y), rfl, s.skipsIf_skip bne_iff_ne⟩

end Sys2Proof.Machine
end

section
/-! PROOFS. The register and ALU instructions: loads, logic, sums, differences, shifts and the draw (R130 to R143). -/

namespace Sys2Proof.Machine

/-! ### The words of the instructions (R65) -/

section
variable (x y : Reg) (nn : Byte)

theorem encodedAs_ldImm : EncodedAs (.ldImm x nn) (0x6000 + 0x100 * x.val + nn.toNat) :=
  encodedAs_of_word (w := wordXNN 0x6 x nn) (by simp [decodeWord]) (wordXNN_toNat _ _ _)

theorem encodedAs_addImm : EncodedAs (.addImm x nn) (0x7000 + 0x100 * x.val + nn.toNat) :=
  encodedAs_of_word (w := wordXNN 0x7 x nn) (by simp [decodeWord]) (wordXNN_toNat _ _ _)

theorem encodedAs_rnd : EncodedAs (.rnd x nn) (0xC000 + 0x100 * x.val + nn.toNat) :=
  encodedAs_of_word (w := wordXNN 0xC x nn) (by simp [decodeWord]) (wordXNN_toNat _ _ _)

end

/-- A word of primary opcode 8 is the instruction that its low nibble selects. -/
theorem encodedAs_of_decodeAlu {i : Instr} {x y : Reg} (fn : BitVec 4) (h : decodeAlu (wordXY 0x8 x y fn) = some i) :
    EncodedAs i (0x8000 + fn.toNat + 0x100 * x.val + 0x10 * y.val) := by
  have hop : (0x8 : BitVec 4).toNat = 8 := rfl
  refine encodedAs_of_word (w := wordXY 0x8 x y fn) ?decode ?toNat
  case decode => rw [decodeWord, fieldOp_wordXY]; exact h
  case toNat => rw [wordXY_toNat, hop]; omega

/-! ### A state that differs from another in its registers, `pc` and supply of draws only -/

theorem changesOnly_regs_draw_pc (s : State) (v : Vector Byte 16) (pc : Word) (queue : List Byte) (count : Nat) :
    ChangesOnly [.regs, .draw, .pc] s { s with v := v, pc := pc, rndIn := queue, draws := count } := by
  intro p hp
  cases p
  case regs | draw | pc => simp at hp
  case mem => exact State.memRead_congr rfl
  case keys => exact State.key_congr rfl
  all_goals simp [Part.same]

theorem changesOnly_regs_pc (s : State) (v : Vector Byte 16) (pc : Word) :
    ChangesOnly [.regs, .pc] s { s with v := v, pc := pc } :=
  (changesOnly_regs_draw_pc s v pc s.rndIn s.draws).of_same (by simp [Part.same])

/-! ### The three orders of writing: a load, a load and then a flag, a flag and then a load (R143) -/

theorem State.loadsRegister (s : State) (x : Reg) (b : Byte) : LoadsRegister s (s.setReg x b).advance x b :=
  ⟨by simp, fun r hr => by simp [hr], rfl, changesOnly_regs_pc s _ _⟩

theorem State.loadsThenFlags (s : State) (x : Reg) {b f : Byte} {result flag : Nat} (hb : b.toNat = result)
    (hf : f.toNat = flag) : LoadsThenFlags s ((s.setReg x b).setReg .vf f).advance x result flag :=
  ⟨by simp [hf], fun hx => by simp [hx, hb], fun r hx hvf => by simp [hx, hvf], rfl, changesOnly_regs_pc s _ _⟩

theorem State.flagsThenLoads (s : State) (x : Reg) {b f : Byte} {result flag : Nat} (hb : b.toNat = result)
    (hf : f.toNat = flag) : FlagsThenLoads s ((s.setReg .vf f).setReg x b).advance x result flag :=
  ⟨by simp [hb], fun hx => by simp [hx.symm, hf], fun r hx hvf => by simp [hx, hvf], rfl, changesOnly_regs_pc s _ _⟩

/-! ### Results and flags as natural numbers -/

theorem toNat_flag (p : Prop) [Decidable p] : (flag (decide p)).toNat = if p then 1 else 0 := by
  by_cases h : p <;> simp [flag, h]

theorem toNat_sub_byte (a b : Byte) : (a - b).toNat = (a.toNat + 256 - b.toNat) % 256 := by
  have := b.isLt
  rw [BitVec.toNat_sub]
  omega

theorem toNat_shiftRight_one (b : Byte) : (b >>> 1).toNat = b.toNat / 2 := by
  rw [BitVec.toNat_ushiftRight, Nat.shiftRight_eq_div_pow, Nat.pow_one]

theorem toNat_shiftLeft_one (b : Byte) : (b <<< 1).toNat = b.toNat * 2 % 256 := by
  rw [BitVec.toNat_shiftLeft, Nat.shiftLeft_eq, Nat.pow_one]

theorem toNat_lowBit (b : Byte) : (lowBit b).toNat = b.toNat % 2 := by
  have hone : (1 : Byte).toNat = 1 := rfl
  rw [lowBit, BitVec.toNat_and, hone, Nat.and_one_is_mod]

theorem toNat_highBit (b : Byte) : (highBit b).toNat = b.toNat / 128 := by
  rw [highBit, BitVec.toNat_ushiftRight, Nat.shiftRight_eq_div_pow]

/-! ### The draw (R92) -/

theorem State.draw_of_cons {s : State} {first : Byte} {rest : List Byte} (h : s.rndIn = first :: rest) :
    s.draw = first := by
  rw [State.draw, h, List.headD_cons]

theorem State.draw_of_nil {s : State} (h : s.rndIn = []) : s.draw = Config.rnd s.draws := by
  rw [State.draw, h, List.headD_nil]

/-! ### The obligations -/

/-- Settles O30: both load one register, and the sum of two bytes is the sum modulo 256. -/
theorem immediateLoadAndAdd : Obligations.ImmediateLoadAndAdd := by
  intro s x nn
  refine ⟨encodedAs_ldImm x nn, encodedAs_addImm x nn, ⟨_, rfl, s.loadsRegister x nn⟩, ⟨_, rfl, ?add⟩⟩
  case add =>
    have hsum : s.reg x + nn = BitVec.ofNat 8 (((s.reg x).toNat + nn.toNat) % 256) :=
      BitVec.eq_of_toNat_eq (by simp)
    rw [← hsum]
    exact s.loadsRegister x _

/-- Settles O31: each loads one register, with VY or a bitwise operation on VX and VY. -/
theorem copyAndLogic : Obligations.CopyAndLogic := by
  intro s x y
  refine ⟨encodedAs_of_decodeAlu 0x0 (by simp [decodeAlu]), encodedAs_of_decodeAlu 0x1 (by simp [decodeAlu]),
    encodedAs_of_decodeAlu 0x2 (by simp [decodeAlu]), encodedAs_of_decodeAlu 0x3 (by simp [decodeAlu]),
    ?copy, ?or, ?and, ?xor⟩
  case copy => exact ⟨_, rfl, s.loadsRegister x _⟩
  case or => exact ⟨_, _, rfl, s.loadsRegister x _, fun _ => BitVec.getLsbD_or⟩
  case and => exact ⟨_, _, rfl, s.loadsRegister x _, fun _ => BitVec.getLsbD_and⟩
  case xor => exact ⟨_, _, rfl, s.loadsRegister x _, fun _ => BitVec.getLsbD_xor⟩

/-- Settles O32: the flag is written last. -/
theorem addWritesSumThenCarry : Obligations.AddWritesSumThenCarry := by
  intro s x y
  exact ⟨encodedAs_of_decodeAlu 0x4 (by simp [decodeAlu]), _, rfl,
    s.loadsThenFlags x (BitVec.toNat_add _ _) (toNat_flag _)⟩

/-- Settles O33: the flag is written last, and the two differ in which register is the minuend. -/
theorem subtractionsWriteDifferenceThenNoBorrow : Obligations.SubtractionsWriteDifferenceThenNoBorrow := by
  intro s x y
  refine ⟨encodedAs_of_decodeAlu 0x5 (by simp [decodeAlu]), encodedAs_of_decodeAlu 0x7 (by simp [decodeAlu]),
    ?sub, ?subn⟩
  case sub => exact ⟨_, rfl, s.loadsThenFlags x (toNat_sub_byte _ _) (toNat_flag _)⟩
  case subn => exact ⟨_, rfl, s.loadsThenFlags x (toNat_sub_byte _ _) (toNat_flag _)⟩

/-- Settles O34: the result is written last. -/
theorem shiftsWriteLostBitThenResult : Obligations.ShiftsWriteLostBitThenResult := by
  intro s x y
  refine ⟨encodedAs_of_decodeAlu 0x6 (by simp [decodeAlu]), encodedAs_of_decodeAlu 0xE (by simp [decodeAlu]),
    ?shr, ?shl⟩
  case shr => exact ⟨_, rfl, s.flagsThenLoads x (toNat_shiftRight_one _) (toNat_lowBit _)⟩
  case shl => exact ⟨_, rfl, s.flagsThenLoads x (toNat_shiftLeft_one _) (toNat_highBit _)⟩

/-- Settles O35: `rnd` is the draw of the state before, and one load follows the use of the draw. -/
theorem rndMasksTheDraw : Obligations.RndMasksTheDraw := by
  intro s x nn
  obtain ⟨hx, hothers, hpc, -⟩ := s.drawUsed.loadsRegister x (nn &&& s.draw)
  refine ⟨encodedAs_rnd x nn, _, s.draw, rfl, fun first rest h => ?given, fun h => ?free, rfl, fun k => ?bits, hothers,
    hpc, changesOnly_regs_draw_pc s _ _ _ _⟩
  case given => exact ⟨State.draw_of_cons h, by simp [h]⟩
  case free => exact ⟨State.draw_of_nil h, by simp [h]⟩
  case bits => rw [hx, BitVec.getLsbD_and]

end Sys2Proof.Machine
end

section
/-! PROOFS. The index register and memory instructions: writes of `I`, block stores and block loads (R150 to R156). -/

namespace Sys2Proof.Machine

/-! ### The words of the instructions (R65) -/

theorem encodedAs_ldIdx (nnn : BitVec 12) : EncodedAs (.ldIdx nnn) (0xA000 + nnn.toNat) :=
  encodedAs_of_word (w := wordNNN 0xA nnn) (by simp [decodeWord]) (wordNNN_toNat _ _)

/-- A word of primary opcode F is the instruction that its low byte selects. -/
theorem encodedAs_of_decodeMisc {i : Instr} {x : Reg} (nn : Byte) (h : decodeMisc (wordXNN 0xF x nn) = some i) :
    EncodedAs i (0xF000 + nn.toNat + 0x100 * x.val) := by
  have hop : (0xF : BitVec 4).toNat = 15 := rfl
  refine encodedAs_of_word (w := wordXNN 0xF x nn) ?decode ?toNat
  case decode => rw [decodeWord, fieldOp_wordXNN]; exact h
  case toNat => rw [wordXNN_toNat, hop]; omega

/-! ### A state that differs from another in its memory, `I` and `pc` only -/

theorem changesOnly_mem_idx_pc (s : State) (m : Memory) (idx pc : Word) :
    ChangesOnly [.mem, .idx, .pc] s { s with mem := m, idx := idx, pc := pc } := by
  intro p hp
  cases p
  case mem | idx | pc => simp at hp
  case regs => exact State.reg_congr rfl
  case keys => exact State.key_congr rfl
  all_goals simp [Part.same]

theorem changesOnly_mem_pc (s : State) (m : Memory) (pc : Word) :
    ChangesOnly [.mem, .pc] s { s with mem := m, pc := pc } :=
  (changesOnly_mem_idx_pc s m s.idx pc).of_same (by simp [Part.same])

theorem State.changesOnly_setIdx_advance (s : State) (w : Word) : ChangesOnly [.idx, .pc] s (s.setIdx w).advance :=
  (changesOnly_mem_idx_pc s s.mem w _).of_same (by simp [Part.same, State.memRead])

/-! ### The sum of `FX1E` (R151) -/

/-- The sum is taken in 16 bits. -/
theorem toNat_add_byte (w : Word) (b : Byte) : (w + b.zeroExtend 16).toNat = (w.toNat + b.toNat) % 65536 := by
  have := b.isLt
  rw [BitVec.toNat_add, BitVec.toNat_setWidth]
  omega

/-! ### A block store at `I` (R153, R154) -/

/-- The state after a store of `bs` at `I` upward that completes. -/
def State.stored (s : State) (bs : List Byte) : State :=
  { s with mem := Memory.writeAll s.mem s.idx.toNat bs, pc := s.pc + 2 }

section
variable (s : State) (bs : List Byte)

theorem State.memRead_stored (k : Nat) (hk : k < bs.length) (h : s.idx.toNat + k < 0x1000) :
    (s.stored bs).memRead (s.idx.toNat + k) = .ok bs[k] := by
  rw [State.memRead_inBounds h, State.stored, Memory.read_writeAll, dif_pos (by omega)]
  simp only [Nat.add_sub_cancel_left]

/-- In bounds the byte is kept; out of bounds the fault is the same before and after. -/
theorem State.memRead_stored_outside {a : Nat} (ha : a < s.idx.toNat ∨ s.idx.toNat + bs.length ≤ a) :
    (s.stored bs).memRead a = s.memRead a := by
  have hkept : Memory.read (s.stored bs).mem a = Memory.read s.mem a := by
    rw [State.stored, Memory.read_writeAll, dif_neg (by omega)]
  rw [State.memRead, State.memRead, hkept]

theorem State.changesOnly_stored : ChangesOnly [.mem, .pc] s (s.stored bs) := changesOnly_mem_pc s _ _

end

/-! ### A block load from `I` (R155) -/

/-- The state after a load of V0 to VX from `I` upward that completes. -/
def State.loaded (s : State) (x : Reg) : State := (s.setRegsFrom 0 (s.bytesAtIdx (regCount x))).advance

section
variable (s : State) (x : Reg)

theorem State.reg_loaded {k : Reg} (hk : k.val ≤ x.val) :
    (s.loaded x).reg k = Memory.read s.mem (s.idx.toNat + k.val) := by
  have hread : 0 ≤ k.val ∧ k.val < 0 + (s.bytesAtIdx (regCount x)).length := by
    rw [State.length_bytesAtIdx, regCount]
    omega
  rw [State.loaded, State.advance_reg, State.reg_setRegsFrom, dif_pos hread, State.getElem_bytesAtIdx, Nat.sub_zero]

theorem State.reg_loaded_above {k : Reg} (hk : x.val < k.val) : (s.loaded x).reg k = s.reg k := by
  have hnotRead : ¬(0 ≤ k.val ∧ k.val < 0 + (s.bytesAtIdx (regCount x)).length) := by
    rw [State.length_bytesAtIdx, regCount]
    omega
  rw [State.loaded, State.advance_reg, State.reg_setRegsFrom, dif_neg hnotRead]

theorem State.pc_loaded : (s.loaded x).pc = s.pc + 2 := by
  rw [State.loaded, State.advance_pc, State.setRegsFrom_eq]

theorem State.changesOnly_loaded : ChangesOnly [.regs, .pc] s (s.loaded x) := by
  rw [State.loaded, State.setRegsFrom_eq]
  exact changesOnly_regs_pc s _ _

end

/-! ### The states that `FX33`, `FX55` and `FX65` reach, and the fault they raise -/

section
variable {s : State} (x : Reg)

theorem exec_storeBcd_inBounds (h : s.idx.toNat + 2 < 0x1000) :
    exec (.storeBcd x) s = .next (s.stored (decimalDigits (s.reg x))) := by
  rw [exec_storeBcd_eq, if_pos h, State.stored]

theorem exec_storeRegs_inBounds (h : s.idx.toNat + x.val < 0x1000) :
    exec (.storeRegs x) s = .next (s.stored (s.firstRegs (regCount x))) := by
  rw [exec_storeRegs_eq, if_pos h, State.stored]

theorem exec_loadRegs_inBounds (h : s.idx.toNat + x.val < 0x1000) : exec (.loadRegs x) s = .next (s.loaded x) := by
  rw [exec_loadRegs_eq, if_pos h, State.loaded]

theorem raises_of_storeBcd_outOfBounds (hf : s.fault = none) (h : 0x1000 ≤ s.idx.toNat + 2) :
    Raises (exec (.storeBcd x) s) s (.memOutOfBounds (max s.idx.toNat 0x1000)) := by
  rw [Raises, exec_storeBcd_eq, if_neg (by omega), State.raise_of_none _ hf]

theorem raises_of_storeRegs_outOfBounds (hf : s.fault = none) (h : 0x1000 ≤ s.idx.toNat + x.val) :
    Raises (exec (.storeRegs x) s) s (.memOutOfBounds (max s.idx.toNat 0x1000)) := by
  rw [Raises, exec_storeRegs_eq, if_neg (by omega), State.raise_of_none _ hf]

theorem raises_of_loadRegs_outOfBounds (hf : s.fault = none) (h : 0x1000 ≤ s.idx.toNat + x.val) :
    Raises (exec (.loadRegs x) s) s (.memOutOfBounds (max s.idx.toNat 0x1000)) := by
  rw [Raises, exec_loadRegs_eq, if_neg (by omega), State.raise_of_none _ hf]

end

/-! ### The registers in memory -/

theorem State.length_firstRegs_regCount (s : State) (x : Reg) : (s.firstRegs (regCount x)).length = x.val + 1 := by
  rw [State.length_firstRegs, regCount]
  omega

/-- After `FX55` byte `I + k` is Vk (R154). -/
theorem State.memRead_stored_firstRegs {s : State} {x k : Reg} (h : s.idx.toNat + x.val < 0x1000)
    (hk : k.val ≤ x.val) : (s.stored (s.firstRegs (regCount x))).memRead (s.idx.toNat + k.val) = .ok (s.reg k) := by
  have hlength : k.val < (s.firstRegs (regCount x)).length := by rw [s.length_firstRegs_regCount]; omega
  rw [s.memRead_stored _ k.val hlength (by omega), State.getElem_firstRegs]

/-- After `FX65` Vk is byte `I + k` (R155). -/
theorem State.memRead_eq_reg_loaded {s : State} {x k : Reg} (h : s.idx.toNat + x.val < 0x1000) (hk : k.val ≤ x.val) :
    s.memRead (s.idx.toNat + k.val) = .ok ((s.loaded x).reg k) := by
  rw [State.memRead_inBounds (by omega), s.reg_loaded x hk]

/-! ### The obligations -/

/-- Settles O37: in bounds the next state is `State.stored` of the three digits, out of bounds it raises. -/
theorem bcdStoresTheDigits : Obligations.BcdStoresTheDigits := by
  intro s x
  refine ⟨encodedAs_of_decodeMisc 0x33 (by simp [decodeMisc]), fun h => ?inBounds, raises_of_storeBcd_outOfBounds x⟩
  have hdigit (k : Nat) (hk : k < 3) := s.memRead_stored (decimalDigits (s.reg x)) k hk (by omega)
  exact ⟨_, exec_storeBcd_inBounds x h, hdigit 0 (by decide), hdigit 1 (by decide), hdigit 2 (by decide),
    fun a ha => s.memRead_stored_outside _ ha, rfl, s.changesOnly_stored _⟩

/-- Settles O38: in bounds the next state is `State.stored` of V0 to VX, out of bounds it raises. -/
theorem storeRegsStoresV0ToVx : Obligations.StoreRegsStoresV0ToVx := by
  intro s x
  refine ⟨encodedAs_of_decodeMisc 0x55 (by simp [decodeMisc]), fun h => ?inBounds, raises_of_storeRegs_outOfBounds x⟩
  exact ⟨_, exec_storeRegs_inBounds x h, fun k => State.memRead_stored_firstRegs h,
    fun a ha => s.memRead_stored_outside _ (by rwa [s.length_firstRegs_regCount]), rfl, s.changesOnly_stored _⟩

/-- Settles O39: in bounds the next state is `State.loaded`, out of bounds it raises. -/
theorem loadRegsLoadsV0ToVx : Obligations.LoadRegsLoadsV0ToVx := by
  intro s x
  refine ⟨encodedAs_of_decodeMisc 0x65 (by simp [decodeMisc]), fun h => ?inBounds, raises_of_loadRegs_outOfBounds x⟩
  exact ⟨_, exec_loadRegs_inBounds x h, fun k => State.memRead_eq_reg_loaded h, fun k => s.reg_loaded_above x,
    s.pc_loaded x, s.changesOnly_loaded x⟩

/-- Settles O40: the load finds at `I + k` the byte that the store put there. -/
theorem storeThenLoadRestoresTheRegisters : Obligations.StoreThenLoadRestoresTheRegisters := by
  intro s t u w x h ht hmem hidx hw k hk
  have hu : u.idx.toNat + x.val < 0x1000 := by rwa [hidx]
  cases (exec_storeRegs_inBounds x h).symm.trans ht
  cases (exec_loadRegs_inBounds x hu).symm.trans hw
  have hbyte : (.ok ((u.loaded x).reg k) : Except Fault Byte) = .ok (s.reg k) :=
    calc .ok ((u.loaded x).reg k)
      _ = u.memRead (u.idx.toNat + k.val) := (State.memRead_eq_reg_loaded hu hk).symm
      _ = (s.stored (s.firstRegs (regCount x))).memRead (s.idx.toNat + k.val) := by
        rw [hidx, State.memRead_congr hmem]
      _ = .ok (s.reg k) := State.memRead_stored_firstRegs h hk
  exact Except.ok.inj hbyte

/-- Settles O36: each writes `I` and moves on, and the three values are known as natural numbers. -/
theorem indexRegisterWrites : Obligations.IndexRegisterWrites := by
  intro s nnn x
  refine ⟨encodedAs_ldIdx nnn, encodedAs_of_decodeMisc 0x1E (by simp [decodeMisc]),
    encodedAs_of_decodeMisc 0x29 (by simp [decodeMisc]), ?ldIdx, ?addIdx, ?ldGlyph⟩
  case ldIdx => exact ⟨_, rfl, addressOf_toNat nnn, rfl, s.changesOnly_setIdx_advance _⟩
  case addIdx => exact ⟨_, rfl, toNat_add_byte s.idx _, rfl, s.changesOnly_setIdx_advance _⟩
  case ldGlyph => exact ⟨_, rfl, glyphAddress_toNat _, rfl, s.changesOnly_setIdx_advance _⟩

end Sys2Proof.Machine
end

section
/-! PROOFS. Keys and timers: the skips on a key, the reads and writes of `DT` and `ST` (R170 to R175). -/

namespace Sys2Proof.Machine

/-! ### Every execute phase and every step answers a next state (log entries 3 and 4) -/

theorem exec_next (i : Instr) (s : State) : ∃ t, exec i s = .next t := by
  cases i
  case ret => rw [exec_ret_eq]; split <;> exact ⟨_, rfl⟩
  case call => rw [exec_call_eq]; split <;> exact ⟨_, rfl⟩
  case ldVxKey =>
    simp only [exec, execLdVxKey]
    repeat' split
    all_goals exact ⟨_, rfl⟩
  case skp | sknp | drw | storeBcd | storeRegs | loadRegs => exact s.commit_next _
  all_goals exact ⟨_, rfl⟩

theorem step_next (s : State) : ∃ t, step s = .next t := by
  cases hf : s.fault with
  | some f => exact ⟨s, step_of_faulted hf⟩
  | none =>
    cases hw : s.fetch with
    | error f => exact ⟨s.raise f, by simp only [step, cycle, hf, hw]⟩
    | ok w =>
      cases hd : decodeWord w with
      | none => exact ⟨s.raise (.illegalOpcode w), by simp only [step, cycle, hf, hw, hd]⟩
      | some i =>
        obtain ⟨u, hu⟩ := exec_next i s
        exact ⟨_, step_of_decoded hf hw hd hu⟩

/-- R85: a cycle that raises nothing and decays the timers is its execute phase and `TimerDecay`. -/
theorem step_of_decays {s u : State} {i : Instr} (hf : s.fault = none) (hpc : s.pc.toNat + 1 < 0x1000)
    (hd : decodeWord s.wordAtPc = some i) (hu : exec i s = .next u) (huf : u.fault = none)
    (hdecays : decays i s ≠ false) : step s = .next u.timerDecay := by
  rw [step_of_decoded hf (State.fetch_inBounds hpc) hd hu, endOfCycle_of_decays huf hdecays]

/-! ### The words of the two skips (R65) -/

/-- A word of primary opcode E is the instruction that its low byte selects. -/
theorem encodedAs_of_decodeKeys {i : Instr} {x : Reg} (nn : Byte) (h : decodeKeys (wordXNN 0xE x nn) = some i) :
    EncodedAs i (0xE000 + nn.toNat + 0x100 * x.val) := by
  have hop : (0xE : BitVec 4).toNat = 14 := rfl
  refine encodedAs_of_word (w := wordXNN 0xE x nn) ?decode ?toNat
  case decode => rw [decodeWord, fieldOp_wordXNN]; exact h
  case toNat => rw [wordXNN_toNat, hop]; omega

/-! ### The key that a register names (R170, R171, R215) -/

section
variable {s : State} (x : Reg)

theorem exec_skp_of_key (h : (s.reg x).toNat < 16) :
    exec (.skp x) s = .next (s.skip (s.key ⟨(s.reg x).toNat, h⟩)) := by
  rw [exec_skp_eq, dif_pos h]

theorem exec_sknp_of_key (h : (s.reg x).toNat < 16) :
    exec (.sknp x) s = .next (s.skip (!s.key ⟨(s.reg x).toNat, h⟩)) := by
  rw [exec_sknp_eq, dif_pos h]

theorem raises_of_skp_noKey (hf : s.fault = none) (h : 15 < (s.reg x).toNat) :
    Raises (exec (.skp x) s) s (.badKeyIndex (s.reg x)) := by
  rw [Raises, exec_skp_eq, dif_neg (by omega), State.raise_of_none _ hf]

theorem raises_of_sknp_noKey (hf : s.fault = none) (h : 15 < (s.reg x).toNat) :
    Raises (exec (.sknp x) s) s (.badKeyIndex (s.reg x)) := by
  rw [Raises, exec_sknp_eq, dif_neg (by omega), State.raise_of_none _ hf]

end

/-! ### A state that differs from another in its timers and `pc` only -/

theorem changesOnly_dt_st_pc (s : State) (dt st : Byte) (pc : Word) :
    ChangesOnly [.dt, .st, .pc] s { s with dt := dt, st := st, pc := pc } := by
  intro p hp
  cases p
  case dt | st | pc => simp at hp
  case mem => exact State.memRead_congr rfl
  case regs => exact State.reg_congr rfl
  case keys => exact State.key_congr rfl
  all_goals simp [Part.same]

theorem State.changesOnly_setDt_advance (s : State) (b : Byte) : ChangesOnly [.dt, .pc] s (s.setDt b).advance :=
  (changesOnly_dt_st_pc s b s.st _).of_same (by simp [Part.same])

theorem State.changesOnly_setSt_advance (s : State) (b : Byte) : ChangesOnly [.st, .pc] s (s.setSt b).advance :=
  (changesOnly_dt_st_pc s s.dt b _).of_same (by simp [Part.same])

/-! ### The obligations -/

/-- Settles O41: each is `Skip` of the key's state or of its complement, and a value that names no key raises. -/
theorem skipsOnKeys : Obligations.SkipsOnKeys := by
  intro s x
  refine ⟨encodedAs_of_decodeKeys 0x9E (by simp [decodeKeys]), encodedAs_of_decodeKeys 0xA1 (by simp [decodeKeys]),
    fun h => ⟨?skp, ?sknp⟩, fun hf h => ⟨raises_of_skp_noKey x hf h, raises_of_sknp_noKey x hf h⟩⟩
  case skp => exact ⟨_, exec_skp_of_key x h, s.skipsIf_skip Iff.rfl⟩
  case sknp => exact ⟨_, exec_sknp_of_key x h, s.skipsIf_skip (iff_of_eq (Bool.not_eq_true' _))⟩

/-- Settles O42: the execute phase moves one byte, and the decay of the same cycle acts on what it left. -/
theorem timerAccess : Obligations.TimerAccess := by
  intro s x
  refine ⟨encodedAs_of_decodeMisc 0x07 (by simp [decodeMisc]), encodedAs_of_decodeMisc 0x15 (by simp [decodeMisc]),
    encodedAs_of_decodeMisc 0x18 (by simp [decodeMisc]), ⟨_, rfl, s.loadsRegister x s.dt⟩,
    ⟨_, rfl, rfl, rfl, s.changesOnly_setDt_advance _⟩, ⟨_, rfl, rfl, rfl, s.changesOnly_setSt_advance _⟩,
    fun hf hpc => ?step⟩
  obtain ⟨t, ht⟩ := step_next s
  refine ⟨t, ht, fun hd => ?readsDt, fun hd => ?writesDt, fun hd => ?writesSt⟩
  case readsDt =>
    cases (step_of_decays hf hpc hd rfl hf Bool.noConfusion).symm.trans ht
    exact ⟨by simp, toNat_countDown s.dt⟩
  case writesDt =>
    cases (step_of_decays hf hpc hd rfl hf Bool.noConfusion).symm.trans ht
    exact toNat_countDown (s.reg x)
  case writesSt =>
    cases (step_of_decays hf hpc hd rfl hf Bool.noConfusion).symm.trans ht
    exact toNat_countDown (s.reg x)

end Sys2Proof.Machine
end

section
/-! PROOFS. The host operations: the load of an image, `step(rnd)`, the key events and the outputs (R190 to R199). -/

namespace Sys2Proof.Machine

/-! ### What an operation leaves unchanged -/

/-- A part unchanged by two transitions is unchanged by both in turn. -/
theorem Part.same.trans {p : Part} {s t u : State} (hst : p.same s t) (htu : p.same t u) : p.same s u := by
  cases p
  case mem | regs | keys => exact fun k => (htu k).trans (hst k)
  case stack | fb => exact fun j k => (htu j k).trans (hst j k)
  case draw => exact ⟨htu.1.trans hst.1, htu.2.trans hst.2⟩
  all_goals exact Eq.trans htu hst

theorem ChangesOnly.trans {ps qs : List Part} {s t u : State} (hst : ChangesOnly ps s t) (htu : ChangesOnly qs t u) :
    ChangesOnly (ps ++ qs) s u := fun p hp =>
  have hkept := not_or.1 (mt List.mem_append.2 hp)
  (hst p hkept.1).trans (htu p hkept.2)

theorem State.changesOnly_timerDecay (s : State) : ChangesOnly [.dt, .st] s s.timerDecay :=
  (changesOnly_dt_st_pc s _ _ s.pc).of_same (by simp [Part.same])

/-- What the key events and `clear_draw_flag` write. -/
theorem changesOnly_keys_drawFlag (s : State) (keys : Vector Bool 16) (value : BitVec 4) (notify dirty : Bool) :
    ChangesOnly [.keys, .keyValue, .keyNotify, .drawFlag] s
      { s with keys := keys, keyValue := value, keyNotify := notify, drawFlag := dirty } := by
  intro p hp
  cases p
  case keys | keyValue | keyNotify | drawFlag => simp at hp
  case mem => exact State.memRead_congr rfl
  case regs => exact State.reg_congr rfl
  all_goals simp [Part.same]

/-! ### The load of an image (R192) -/

section
variable {s : State} {image : List Byte}

theorem State.hostLoad_of_fits (h : image.length ≤ 3584) :
    s.hostLoad image = { s with mem := Memory.writeAll s.mem 0x200 image } := by
  rw [State.hostLoad_eq, if_pos h]

theorem State.hostLoad_of_tooLong (h : 3584 < image.length) : s.hostLoad image = s.raise (.memOutOfBounds 0x1000) := by
  rw [State.hostLoad_eq, if_neg (by omega)]

/-- An image that fits is in memory where a block store with `I` at 0x200 puts its bytes. -/
theorem State.memRead_hostLoad (h : image.length ≤ 3584) (a : Nat) :
    (s.hostLoad image).memRead a = (State.stored { s with idx := 0x200 } image).memRead a := by
  rw [State.hostLoad_of_fits h]
  exact State.memRead_congr rfl a

end

/-! ### The key events (R193, R194) -/

section
variable (s : State) {c : Nat}

/-- The press is delivered only while the core waits. -/
theorem State.hostSetKey_of_key (h : c < 16) :
    s.hostSetKey c =
      { s with
        keys := s.keys.set c true
        keyValue := if s.waiting then BitVec.ofNat 4 c else s.keyValue
        keyNotify := if s.waiting then true else s.keyNotify } := by
  rw [State.hostSetKey, dif_pos h]
  cases s.waiting <;> simp

theorem State.hostClearKey_of_key (h : c < 16) : s.hostClearKey c = { s with keys := s.keys.set c false } := dif_pos h

theorem State.key_hostSetKey (h : c < 16) (k : Fin 16) :
    (s.hostSetKey c).key k = if k.val = c then true else s.key k := by
  simp only [s.hostSetKey_of_key h, State.key, Vector.getElem_set, eq_comm]

theorem State.key_hostClearKey (h : c < 16) (k : Fin 16) :
    (s.hostClearKey c).key k = if k.val = c then false else s.key k := by
  simp only [s.hostClearKey_of_key h, State.key, Vector.getElem_set, eq_comm]

theorem State.changesOnly_hostSetKey (h : c < 16) :
    ChangesOnly [.keys, .keyValue, .keyNotify] s (s.hostSetKey c) := by
  rw [s.hostSetKey_of_key h]
  exact (changesOnly_keys_drawFlag s _ _ _ s.drawFlag).of_same (by simp [Part.same])

theorem State.changesOnly_hostClearKey (h : c < 16) : ChangesOnly [.keys] s (s.hostClearKey c) := by
  rw [s.hostClearKey_of_key h]
  exact (changesOnly_keys_drawFlag s _ s.keyValue s.keyNotify s.drawFlag).of_same (by simp [Part.same])

theorem State.hostSetKey_of_noKey (h : 15 < c) : s.hostSetKey c = s := dif_neg (Nat.not_lt.2 h)

theorem State.hostClearKey_of_noKey (h : 15 < c) : s.hostClearKey c = s := dif_neg (Nat.not_lt.2 h)

end

/-! ### A step from another supply of draws (R89, R92) -/

theorem step_of_fetchFault {s : State} {f : Fault} (hf : s.fault = none) (hw : s.fetch = .error f) :
    step s = .next (s.raise f) := by
  simp only [step, cycle, hf, hw]

theorem step_of_illegal {s : State} {w : Word} (hf : s.fault = none) (hw : s.fetch = .ok w)
    (hd : decodeWord w = none) : step s = .next (s.raise (.illegalOpcode w)) := by
  simp only [step, cycle, hf, hw, hd]

section
variable {s s' : State} (hc : s'.toCoreState = s.toCoreState)
include hc

theorem State.fetch_core : s'.fetch = s.fetch := by
  rw [State.fetch_eq, State.fetch_eq, hc]

theorem State.raise_core (f : Fault) : (s'.raise f).toCoreState = (s.raise f).toCoreState := by
  simp only [State.raise, hc]

theorem endOfCycle_core {i : Instr} {u u' : State} (hu : u'.toCoreState = u.toCoreState) :
    (endOfCycle i s' u').toCoreState = (endOfCycle i s u).toCoreState := by
  have hdecays : decays i s' = decays i s := by simp only [decays, hc]
  unfold endOfCycle
  rw [hu, hdecays]
  split
  · simp only [State.timerDecay, hu]
  · exact hu

/-- Which core a step reaches is settled by the core and the draw. -/
theorem step_core {t : State} (hd : s'.draw = s.draw) (h : step s = .next t) :
    ∃ t', step s' = .next t' ∧ t'.toCoreState = t.toCoreState := by
  have hfault : s'.fault = s.fault := congrArg CoreState.fault hc
  have hfetch := State.fetch_core hc
  rcases step_cases h with ⟨hf, rfl⟩ | ⟨hf, f, hw, rfl⟩ | ⟨hf, w, hw, hi, rfl⟩ |
    ⟨hf, w, i, u, hw, hi, hu, rfl⟩
  · obtain ⟨f, hf⟩ := Option.ne_none_iff_exists'.1 hf
    exact ⟨s', step_of_faulted (hfault.trans hf), hc⟩
  · exact ⟨_, step_of_fetchFault (hfault.trans hf) (hfetch.trans hw), State.raise_core hc f⟩
  · exact ⟨_, step_of_illegal (hfault.trans hf) (hfetch.trans hw) hi, State.raise_core hc _⟩
  · obtain ⟨u', hu', hcore⟩ := exec_core hc (.inl hd) hu
    exact ⟨_, step_of_decoded (hfault.trans hf) (hfetch.trans hw) hi hu', endOfCycle_core hc hcore⟩

end

/-! ### `step(rnd)` (R199) -/

/-- A step takes the core where `Step(rnd)` takes it, `rnd` being the draw of the step. -/
theorem CoreState.step_of_step {s t : State} (h : Sys2Proof.Machine.step s = .next t) :
    CoreState.step s.draw s.toCoreState = .next t.toCoreState := by
  obtain ⟨t', ht', hcore⟩ := step_core (s := s) (s' := { s with rndIn := [s.draw], draws := 0 }) rfl rfl h
  exact CoreState.step_eq_next.2 ⟨t', ht', hcore.symm⟩

theorem perform_step {s : State} {c : CoreState} {rnd : Byte} (h : CoreState.step rnd s.toCoreState = .next c) :
    perform (.step rnd) s = .next ({ s with toCoreState := c }, .done) := by
  have hstep : s.hostStep rnd = .next { s with toCoreState := c } := State.hostStep_eq_next.2 ⟨c, h, rfl⟩
  simp only [perform, hstep]

/-- R141, R85: a `CXNN` with the draw of the host, and the decay of its cycle. -/
theorem perform_step_of_rnd {s : State} {x : Reg} {nn : Byte} (rnd : Byte) (hf : s.fault = none)
    (hpc : s.pc.toNat + 1 < 0x1000) (hd : decodeWord s.wordAtPc = some (.rnd x nn)) :
    perform (.step rnd) s = .next ((s.setReg x (nn &&& rnd)).advance.timerDecay, .done) :=
  have hstep := step_of_decays (s := { s with rndIn := rnd :: s.rndIn }) hf hpc hd rfl hf Bool.noConfusion
  perform_step (CoreState.step_of_step hstep)

/-! ### The obligations -/

/-- Settles O49: the image is a block of bytes at 0x200, and one that does not fit raises. -/
theorem loadCopiesTheImage : Obligations.LoadCopiesTheImage := by
  intro s image
  refine ⟨fun h => ⟨s.hostLoad image, rfl, fun k hk => ?copied, fun a ha => ?kept, ?frame⟩,
    fun h => ⟨fun hf => ?raises, fun hf => ?latched⟩⟩
  case copied =>
    rw [State.memRead_hostLoad h]
    exact State.memRead_stored { s with idx := 0x200 } image k hk (show 0x200 + k < 0x1000 by omega)
  case kept =>
    rw [State.memRead_hostLoad h]
    exact State.memRead_stored_outside { s with idx := 0x200 } image ha
  case frame =>
    rw [State.hostLoad_of_fits h]
    exact changesOnly_mem s _
  case raises => rw [perform, State.hostLoad_of_tooLong h, State.raise_of_none _ hf]
  case latched =>
    obtain ⟨f, hf⟩ := Option.ne_none_iff_exists'.1 hf
    rw [perform, State.hostLoad_of_tooLong h, State.raise_of_some _ hf]

/-- Settles O52: which core a step reaches is settled by the core and the draw, so the supply behind the host's draw
plays no part, and a `CXNN` loads its masked draw and decays the timers. -/
theorem hostStepSuppliesTheDraw : Obligations.HostStepSuppliesTheDraw := by
  intro s rnd
  refine ⟨?anyWord, fun x nn hf hpc hd => ?rnd⟩
  case anyWord =>
    obtain ⟨u, hu⟩ := step_next { s with rndIn := rnd :: s.rndIn }
    have hcore := CoreState.step_of_step hu
    exact ⟨u, hu, hcore, perform_step hcore⟩
  case rnd =>
    obtain ⟨hx, hothers, hpc', hframe⟩ := s.loadsRegister x (nn &&& rnd)
    refine ⟨_, perform_step_of_rnd rnd hf hpc hd, fun k => ?bits, hothers, hpc', toNat_countDown s.dt,
      toNat_countDown s.st, hframe.trans (State.changesOnly_timerDecay _)⟩
    case bits => rw [State.timerDecay_reg, hx, BitVec.getLsbD_and]

/-- Settles O50: a code that names a key writes its flag, and a press is delivered while the core waits. -/
theorem keyEvents : Obligations.KeyEvents := by
  intro s c
  refine ⟨fun h => ?noKey, fun h => ⟨?press, ?release⟩⟩
  case noKey => exact ⟨by rw [perform, s.hostSetKey_of_noKey h], by rw [perform, s.hostClearKey_of_noKey h]⟩
  case press =>
    refine ⟨s.hostSetKey c, rfl, (s.key_hostSetKey h _).trans (if_pos rfl),
      fun k hk => (s.key_hostSetKey h k).trans (if_neg hk), fun hw => ?delivered, fun hw => ?notDelivered,
      s.changesOnly_hostSetKey h⟩
    case delivered => simp [s.hostSetKey_of_key h, hw, Nat.mod_eq_of_lt h]
    case notDelivered => simp [s.hostSetKey_of_key h, hw]
  case release =>
    exact ⟨s.hostClearKey c, rfl, (s.key_hostClearKey h _).trans (if_pos rfl),
      fun k hk => (s.key_hostClearKey h k).trans (if_neg hk), s.changesOnly_hostClearKey h⟩

/-- Settles O51: the reads answer the parts they name, and the flag is the one thing cleared. -/
theorem hostReadsTheOutputs : Obligations.HostReadsTheOutputs := fun s =>
  ⟨⟨s.fb, rfl, s.fb.cell_eq_pixel⟩,
    ⟨s.hostClearDrawFlag, rfl, rfl,
      (changesOnly_keys_drawFlag s s.keys s.keyValue s.keyNotify false).of_same (by simp [Part.same, State.key])⟩,
    rfl, rfl⟩

end Sys2Proof.Machine
end

section
/-! PROOFS. The illegal words: a word that decodes matches a row of the opcode map, and a word that matches none raises
(R64, R67, R214). -/

namespace Sys2Proof

/-! ### A word from its primary opcode and the fields of its format (R62) -/

section
variable {w : Word} {op : BitVec 4}

theorem wordNNN_of_fieldOp (hop : fieldOp w = op) : wordNNN op (fieldNNN w) = w := by
  rw [← hop, wordNNN_of_fields]

theorem wordXNN_of_fieldOp_fieldNN {nn : Byte} (hop : fieldOp w = op) (hnn : fieldNN w = nn) :
    wordXNN op (fieldX w) nn = w := by
  rw [← hop, ← hnn, wordXNN_of_fields]

theorem wordXY_of_fieldOp_fieldN {n : BitVec 4} (hop : fieldOp w = op) (hn : fieldN w = n) :
    wordXY op (fieldX w) (fieldY w) n = w := by
  rw [← hop, ← hn, wordXY_of_fields]

end

/-! ### A word that decodes is the word its instruction encodes to (R65) -/

section
variable {w : Word} {i : Instr}

theorem encode_of_decodeZero (h : decodeZero w = some i) : encode i = w := by
  unfold decodeZero at h
  split_ifs at h with hw hw hw <;> cases h <;> exact hw.symm

theorem encode_of_decodeAlu (hop : fieldOp w = 0x8) (h : decodeAlu w = some i) : encode i = w := by
  unfold decodeAlu at h
  split at h <;> cases h <;> next hn => exact wordXY_of_fieldOp_fieldN hop (BitVec.eq_of_toNat_eq hn)

theorem encode_of_decodeKeys (hop : fieldOp w = 0xE) (h : decodeKeys w = some i) : encode i = w := by
  unfold decodeKeys at h
  split_ifs at h with hnn hnn <;> cases h <;> exact wordXNN_of_fieldOp_fieldNN hop hnn

theorem encode_of_decodeMisc (hop : fieldOp w = 0xF) (h : decodeMisc w = some i) : encode i = w := by
  unfold decodeMisc at h
  split_ifs at h with hnn hnn hnn hnn hnn hnn hnn hnn hnn <;> cases h <;>
    exact wordXNN_of_fieldOp_fieldNN hop hnn

/-- The cases are those of `decodeWord`, in its order, gathered by the format of the instruction. -/
theorem encode_of_decodeWord (h : decodeWord w = some i) : encode i = w := by
  unfold decodeWord at h
  split at h
  case h_1 => exact encode_of_decodeZero h
  case h_9 hop => exact encode_of_decodeAlu (BitVec.eq_of_toNat_eq hop) h
  case h_15 hop => exact encode_of_decodeKeys (BitVec.eq_of_toNat_eq hop) h
  case h_16 hop => exact encode_of_decodeMisc (BitVec.eq_of_toNat_eq hop) h
  case h_17 => cases h
  case h_2 hop | h_3 hop | h_11 hop | h_12 hop =>
    cases h
    exact wordNNN_of_fieldOp (BitVec.eq_of_toNat_eq hop)
  case h_4 hop | h_5 hop | h_7 hop | h_8 hop | h_13 hop =>
    cases h
    exact wordXNN_of_fieldOp_fieldNN (BitVec.eq_of_toNat_eq hop) rfl
  case h_14 hop =>
    cases h
    exact wordXY_of_fieldOp_fieldN (BitVec.eq_of_toNat_eq hop) rfl
  case h_6 hop | h_10 hop =>
    split_ifs at h with hn
    cases h
    exact wordXY_of_fieldOp_fieldN (BitVec.eq_of_toNat_eq hop) hn

end

/-! ### A word that decodes matches the row of its instruction (R64) -/

open Laws in
/-- R65, instruction by instruction. -/
theorem encodesInRow (i : Instr) : EncodesInRow.Statement i := by
  cases i with
  | halt0 => exact EncodesInRow.halt0
  | cls => exact EncodesInRow.cls
  | ret => exact EncodesInRow.ret
  | jp nnn => exact EncodesInRow.jp nnn
  | call nnn => exact EncodesInRow.call nnn
  | seImm x nn => exact EncodesInRow.seImm x nn
  | sneImm x nn => exact EncodesInRow.sneImm x nn
  | seReg x y => exact EncodesInRow.seReg x y
  | ldImm x nn => exact EncodesInRow.ldImm x nn
  | addImm x nn => exact EncodesInRow.addImm x nn
  | ldReg x y => exact EncodesInRow.ldReg x y
  | orReg x y => exact EncodesInRow.orReg x y
  | andReg x y => exact EncodesInRow.andReg x y
  | xorReg x y => exact EncodesInRow.xorReg x y
  | addReg x y => exact EncodesInRow.addReg x y
  | subReg x y => exact EncodesInRow.subReg x y
  | shrReg x y => exact EncodesInRow.shrReg x y
  | subnReg x y => exact EncodesInRow.subnReg x y
  | shlReg x y => exact EncodesInRow.shlReg x y
  | sneReg x y => exact EncodesInRow.sneReg x y
  | ldIdx nnn => exact EncodesInRow.ldIdx nnn
  | jpV0 nnn => exact EncodesInRow.jpV0 nnn
  | rnd x nn => exact EncodesInRow.rnd x nn
  | drw x y n => exact EncodesInRow.drw x y n
  | skp x => exact EncodesInRow.skp x
  | sknp x => exact EncodesInRow.sknp x
  | ldVxDt x => exact EncodesInRow.ldVxDt x
  | ldVxKey x => exact EncodesInRow.ldVxKey x
  | ldDtVx x => exact EncodesInRow.ldDtVx x
  | ldStVx x => exact EncodesInRow.ldStVx x
  | addIdx x => exact EncodesInRow.addIdx x
  | ldGlyph x => exact EncodesInRow.ldGlyph x
  | storeBcd x => exact EncodesInRow.storeBcd x
  | storeRegs x => exact EncodesInRow.storeRegs x
  | loadRegs x => exact EncodesInRow.loadRegs x

theorem row_of_decodeWord {w : Word} {i : Instr} (h : decodeWord w = some i) :
    i.row ∈ opcodeMap ∧ w &&& i.row.mask = i.row.value := by
  obtain ⟨hmem, hmatch⟩ := encodesInRow i
  rw [encode_of_decodeWord h] at hmatch
  exact ⟨hmem, eq_of_beq hmatch⟩

theorem decodeWord_eq_none_of_no_row {w : Word} (h : ∀ r ∈ opcodeMap, w &&& r.mask ≠ r.value) :
    decodeWord w = none := by
  rw [Option.eq_none_iff_forall_ne_some]
  intro i hi
  obtain ⟨hmem, hmatch⟩ := row_of_decodeWord hi
  exact h i.row hmem hmatch

namespace Machine

/-- Settles O11: a word that matches no row does not decode, and the fault it raises finds the latch empty. -/
theorem illegalWordRaises : Obligations.IllegalWordRaises := by
  intro s hf hpc hw
  rw [Raises, ← State.raise_of_none _ hf]
  exact step_of_illegal hf (State.fetch_inBounds hpc) (decodeWord_eq_none_of_no_row hw)

end Machine
end Sys2Proof
end

section
/-! PROOFS. The decoder and the encoder: the round trip, the opcode map, the table of illegal words (R60 to R67). -/

namespace Sys2Proof

/-! ### The word of an instruction decodes to it (R65) -/

/-- The primary opcode selects the arm, and in the arms of opcodes 8, E and F the low nibble or byte selects the
instruction. -/
theorem decodeWord_encode (i : Instr) : decodeWord (encode i) = some i := by
  cases i
  case halt0 | cls | ret => decide
  case jp | call | ldIdx | jpV0 => simp [encode, decodeWord]
  case seImm | sneImm | ldImm | addImm | rnd => simp [encode, decodeWord]
  case seReg | sneReg | drw => simp [encode, decodeWord]
  case ldReg | orReg | andReg | xorReg | addReg | subReg | shrReg | subnReg | shlReg =>
    simp [encode, decodeWord, decodeAlu]
  case skp | sknp => simp [encode, decodeWord, decodeKeys]
  case ldVxDt | ldVxKey | ldDtVx | ldStVx | addIdx | ldGlyph | storeBcd | storeRegs | loadRegs =>
    simp [encode, decodeWord, decodeMisc]

/-- Settles O1: the two bytes of a word make up that word again. -/
theorem decodeOfEncodeGivesTheInstructionBack : Obligations.DecodeOfEncodeGivesTheInstructionBack := by
  intro i rest
  have hword := decodeWord_encode i
  exact ⟨by simp [encodeBytes, decodeBytes, hword], hword⟩

/-- Settles O2: see `encode_of_decodeWord`. -/
theorem encodeOfDecodeGivesTheWordBack : Obligations.EncodeOfDecodeGivesTheWordBack := fun _ _ =>
  encode_of_decodeWord

/-! ### What the decoder looks at (R64) -/

/-- Whether a word decodes is settled by its primary opcode, by its low nibble for opcodes 5, 8 and 9, by its low byte
for opcodes E and F, and by the whole word for opcode 0. -/
theorem decodes_congr {w w' : Word} (hop : fieldOp w = fieldOp w')
    (hn : fieldOp w' ∈ [0x5, 0x8, 0x9] → fieldN w = fieldN w')
    (hnn : fieldOp w' ∈ [0xE, 0xF] → fieldNN w = fieldNN w') (hw : fieldOp w' = 0x0 → w = w') :
    (decodeWord w).isSome = (decodeWord w').isSome := by
  unfold decodeWord
  rw [hop]
  split
  case h_1 h => rw [hw (BitVec.eq_of_toNat_eq h)]
  case h_6 h | h_10 h =>
    rw [hn (by simp [BitVec.toNat_eq, h])]
    split <;> rfl
  case h_9 h =>
    unfold decodeAlu
    rw [hn (by simp [BitVec.toNat_eq, h])]
    split <;> rfl
  case h_15 h =>
    unfold decodeKeys
    rw [hnn (by simp [BitVec.toNat_eq, h])]
    split_ifs <;> rfl
  case h_16 h =>
    unfold decodeMisc
    rw [hnn (by simp [BitVec.toNat_eq, h])]
    split_ifs <;> rfl
  all_goals rfl

/-- The row fixes every bit of a word that settles whether it decodes, and its own value decodes. -/
def OpcodeRow.Fixes (r : OpcodeRow) : Prop :=
  (decodeWord r.value).isSome = true ∧ fieldOp r.mask = 0xF ∧
    (fieldOp r.value ∈ [0x5, 0x8, 0x9] → fieldN r.mask = 0xF) ∧
    (fieldOp r.value ∈ [0xE, 0xF] → fieldNN r.mask = 0xFF) ∧ (fieldOp r.value = 0x0 → r.mask = 0xFFFF)

theorem fixes_of_mem_opcodeMap : ∀ r ∈ opcodeMap, r.Fixes := by
  unfold OpcodeRow.Fixes
  decide

/-- A word that matches a row decodes as the row's value does: the mask keeps the fields that the decoder looks at. -/
theorem decodes_of_row {w : Word} {r : OpcodeRow} (hr : r ∈ opcodeMap) (hw : w &&& r.mask = r.value) :
    (decodeWord w).isSome = true := by
  obtain ⟨hdecodes, hop, hn, hnn, hmask⟩ := fixes_of_mem_opcodeMap r hr
  rw [← hdecodes]
  refine decodes_congr ?op (fun h => ?n) (fun h => ?nn) (fun h => ?word)
  case op => rw [← hw, fieldOp_and, hop, show (0xF : BitVec 4) = BitVec.allOnes 4 from rfl, BitVec.and_allOnes]
  case n => rw [← hw, fieldN_and, hn h, show (0xF : BitVec 4) = BitVec.allOnes 4 from rfl, BitVec.and_allOnes]
  case nn => rw [← hw, fieldNN_and, hnn h, show (0xFF : Byte) = BitVec.allOnes 8 from rfl, BitVec.and_allOnes]
  case word => rw [← hw, hmask h, show (0xFFFF : Word) = BitVec.allOnes 16 from rfl, BitVec.and_allOnes]

/-! ### The rows are disjoint (R64) -/

/-- Two rows that agree on the bits that both of them fix are one row. -/
theorem opcodeMap_disjoint :
    ∀ r ∈ opcodeMap, ∀ r' ∈ opcodeMap, r.value &&& r'.mask = r'.value &&& r.mask → r = r' := by
  decide

/-- Settles O3: a word that decodes matches the row of its instruction, and a word that matches a row decodes. -/
theorem decoderFollowsTheOpcodeMap : Obligations.DecoderFollowsTheOpcodeMap := by
  refine ⟨fun w => ⟨?inRow, ?decodes⟩, fun w i => row_of_decodeWord, fun w r r' hr hr' hw hw' => ?disjoint⟩
  case inRow =>
    rintro ⟨i, hi⟩
    exact ⟨i.row, row_of_decodeWord hi⟩
  case decodes =>
    rintro ⟨r, hr, hw⟩
    exact Option.isSome_iff_exists.1 (decodes_of_row hr hw)
  case disjoint =>
    refine opcodeMap_disjoint r hr r' hr' ?_
    rw [← hw, ← hw', BitVec.and_assoc, BitVec.and_assoc, BitVec.and_comm r.mask]

/-! ### The words that do not decode, opcode by opcode (R67) -/

/-- One test of a chain of them. -/
theorem ite_some_eq_none_iff {α : Type} (c : Prop) [Decidable c] (a : α) (o : Option α) :
    (if c then some a else o) = none ↔ ¬c ∧ o = none := by
  split <;> simp [*]

theorem decodeZero_eq_none_iff (w : Word) : decodeZero w = none ↔ w ≠ 0x0000 ∧ w ≠ 0x00E0 ∧ w ≠ 0x00EE := by
  simp [decodeZero, ite_some_eq_none_iff]

theorem decodeAlu_eq_none_iff (w : Word) :
    decodeAlu w = none ↔ w.toNat % 0x10 ∈ [8, 9, 0xA, 0xB, 0xC, 0xD, 0xF] := by
  have hlt := Nat.mod_lt w.toNat (show 0x10 > 0 by decide)
  unfold decodeAlu
  rw [fieldN_toNat]
  generalize w.toNat % 0x10 = n at hlt
  interval_cases n <;> simp

/-- The low byte is known by its value as a natural number. -/
theorem fieldNN_eq_iff (w : Word) (nn : Byte) : fieldNN w = nn ↔ w.toNat % 0x100 = nn.toNat := by
  rw [BitVec.toNat_eq, fieldNN_toNat]

theorem fieldN_eq_iff (w : Word) (n : BitVec 4) : fieldN w = n ↔ w.toNat % 0x10 = n.toNat := by
  rw [BitVec.toNat_eq, fieldN_toNat]

theorem decodeKeys_eq_none_iff (w : Word) : decodeKeys w = none ↔ w.toNat % 0x100 ∉ [0x9E, 0xA1] := by
  simp [decodeKeys, ite_some_eq_none_iff, fieldNN_eq_iff]

theorem decodeMisc_eq_none_iff (w : Word) :
    decodeMisc w = none ↔ w.toNat % 0x100 ∉ [0x07, 0x0A, 0x15, 0x18, 0x1E, 0x29, 0x33, 0x55, 0x65] := by
  simp [decodeMisc, ite_some_eq_none_iff, fieldNN_eq_iff]

/-- Settles O4: the cases are those of `decodeWord`, and the primary opcode selects one family of the table. -/
theorem illegalWordsAreExactlyTheTableOfR67 : Obligations.IllegalWordsAreExactlyTheTableOfR67 := by
  intro w
  have hlt : w.toNat / 0x1000 < 0x10 := by have := w.isLt; omega
  unfold decodeWord
  rw [fieldOp_toNat]
  split
  case h_1 h => simp only [h, decodeZero_eq_none_iff]; simp
  case h_6 h | h_10 h => simp [h, fieldN_eq_iff]
  case h_9 h => simp only [h, decodeAlu_eq_none_iff]; simp
  case h_15 h => simp only [h, decodeKeys_eq_none_iff]; simp
  case h_16 h => simp only [h, decodeMisc_eq_none_iff]; simp
  case h_17 => interval_cases w.toNat / 0x1000 <;> simp_all
  all_goals simp [*]

/-- Settles O5: six of the words are the encodings of their instructions, and `812D` is in the table of illegal
words. -/
theorem sampleWordsDecode : Obligations.SampleWordsDecode :=
  ⟨decodeWord_encode (.drw 1 2 15), decodeWord_encode (.shrReg 10 11), decodeWord_encode (.storeRegs 3),
    decodeWord_encode (.jpV0 0xFED), decodeWord_encode .ret, decodeWord_encode .halt0,
    (illegalWordsAreExactlyTheTableOfR67 0x812D).2 (by decide)⟩

end Sys2Proof
end

section
/-! PROOFS. The cycle of `FX0A` (R173), and the access matrix: what the execute phase of each instruction can write
(R26). -/

namespace Sys2Proof.Machine

/-! ### More parts than those that change may be listed -/

theorem ChangesOnly.mono {ps qs : List Part} {s t : State} (h : ChangesOnly ps s t) (hsub : ps ⊆ qs) :
    ChangesOnly qs s t := fun p hp => h p fun hmem => hp (hsub hmem)

theorem changesOnly_refl (ps : List Part) (s : State) : ChangesOnly ps s s :=
  ((changesOnly_sp_pc s s.sp s.pc).of_same (qs := []) (by simp [Part.same])).mono (List.nil_subset ps)

/-- R217. -/
theorem State.changesOnly_raise (s : State) (f : Fault) : ChangesOnly [.fault] s (s.raise f) := by
  intro p hp
  cases p
  case fault => exact absurd List.mem_cons_self hp
  case mem => exact State.memRead_congr rfl
  case keys => exact State.key_congr rfl
  all_goals simp [Part.same]

/-! ### One cycle of `FX0A` (R173) -/

/-- The state after an `FX0A` that completes. -/
def State.keyTaken (s : State) (x : Reg) : State := ((s.setReg x (keyCode s.keyValue)).idle).advance

section
variable {s : State} (x : Reg)

theorem exec_ldVxKey_entry (hw : s.waiting = false) : exec (.ldVxKey x) s = .next s.awaitKey := by
  simp [exec, execLdVxKey, hw]

theorem exec_ldVxKey_spin (hw : s.waiting = true) (hn : s.keyNotify = false) : exec (.ldVxKey x) s = .next s := by
  simp [exec, execLdVxKey, hw, hn]

theorem exec_ldVxKey_completion (hw : s.waiting = true) (hn : s.keyNotify = true) :
    exec (.ldVxKey x) s = .next (s.keyTaken x) := by
  simp [exec, execLdVxKey, hw, hn, State.keyTaken]

end

/-- Everything a cycle of `FX0A` can do. -/
theorem exec_ldVxKey_cases {s t : State} {x : Reg} (h : exec (.ldVxKey x) s = .next t) :
    (s.waiting = false ∧ t = s.awaitKey) ∨ (s.waiting = true ∧ s.keyNotify = false ∧ t = s) ∨
    (s.waiting = true ∧ s.keyNotify = true ∧ t = s.keyTaken x) := by
  cases hw : s.waiting with
  | false =>
    cases (exec_ldVxKey_entry x hw).symm.trans h
    exact .inl ⟨rfl, rfl⟩
  | true =>
    cases hn : s.keyNotify with
    | false =>
      cases (exec_ldVxKey_spin x hw hn).symm.trans h
      exact .inr (.inl ⟨rfl, rfl, rfl⟩)
    | true =>
      cases (exec_ldVxKey_completion x hw hn).symm.trans h
      exact .inr (.inr ⟨rfl, rfl, rfl⟩)

theorem changesOnly_regs_wait_pc (s : State) (v : Vector Byte 16) (waiting notify : Bool) (pc : Word) :
    ChangesOnly [.regs, .waiting, .keyNotify, .pc] s
      { s with v := v, waiting := waiting, keyNotify := notify, pc := pc } := by
  intro p hp
  cases p
  case regs | waiting | keyNotify | pc => simp at hp
  case mem => exact State.memRead_congr rfl
  case keys => exact State.key_congr rfl
  all_goals simp [Part.same]

theorem State.changesOnly_awaitKey (s : State) : ChangesOnly [.waiting] s s.awaitKey :=
  (changesOnly_regs_wait_pc s s.v true s.keyNotify s.pc).of_same (by simp [Part.same, State.reg])

theorem State.changesOnly_keyTaken (s : State) (x : Reg) :
    ChangesOnly [.regs, .waiting, .keyNotify, .pc] s (s.keyTaken x) :=
  changesOnly_regs_wait_pc s _ _ _ _

theorem State.reg_keyTaken (s : State) (x r : Reg) :
    (s.keyTaken x).reg r = if r = x then keyCode s.keyValue else s.reg r :=
  s.reg_setReg x r _

/-- Settles O43: the three clauses are the entry, the spin and the completion. -/
theorem keyWaitCycle : Obligations.KeyWaitCycle := by
  intro s x
  refine ⟨encodedAs_of_decodeMisc 0x0A (by simp [decodeMisc]), fun hw => ?entry, exec_ldVxKey_spin x,
    fun hw hn => ?completion⟩
  case entry => exact ⟨s.awaitKey, exec_ldVxKey_entry x hw, rfl, s.changesOnly_awaitKey⟩
  case completion =>
    exact ⟨s.keyTaken x, exec_ldVxKey_completion x hw hn, by rw [s.reg_keyTaken, if_pos rfl, keyCode_toNat],
      fun r hr => by rw [s.reg_keyTaken, if_neg hr], rfl, rfl, rfl, s.changesOnly_keyTaken x⟩

/-! ### Parts (R26, R217) -/

/-- An execute phase raises a fault on the state it started from, or writes the parts in its row of the access matrix
only. -/
theorem exec_raises_or_changesOnly {i : Instr} {s t : State} (h : exec i s = .next t) :
    (∃ f, t = s.raise f) ∨ ChangesOnly (partsWritten i) s t := by
  cases i
  case ret =>
    rw [exec_ret_eq] at h; split at h <;> cases h
    exacts [.inr ((changesOnly_sp_pc s _ _).mono (by simp [partsWritten])), .inl ⟨_, rfl⟩]
  case call =>
    rw [exec_call_eq] at h; split at h <;> cases h
    exacts [.inr (changesOnly_stack_sp_pc s _ _ _), .inl ⟨_, rfl⟩]
  case skp =>
    rw [exec_skp_eq] at h; split at h <;> cases h
    exacts [.inr (s.changesOnly_jump _), .inl ⟨_, rfl⟩]
  case sknp =>
    rw [exec_sknp_eq] at h; split at h <;> cases h
    exacts [.inr (s.changesOnly_jump _), .inl ⟨_, rfl⟩]
  case drw x y n =>
    rw [exec_drw_eq] at h; split at h <;> cases h
    exacts [.inr (s.changesOnly_drawn x y n), .inl ⟨_, rfl⟩]
  case storeBcd =>
    rw [exec_storeBcd_eq] at h; split at h <;> cases h
    exacts [.inr (s.changesOnly_stored _), .inl ⟨_, rfl⟩]
  case storeRegs =>
    rw [exec_storeRegs_eq] at h; split at h <;> cases h
    exacts [.inr (s.changesOnly_stored _), .inl ⟨_, rfl⟩]
  case loadRegs x =>
    rw [exec_loadRegs_eq] at h; split at h <;> cases h
    exacts [.inr (s.changesOnly_loaded x), .inl ⟨_, rfl⟩]
  case ldVxKey x =>
    rcases exec_ldVxKey_cases h with ⟨-, rfl⟩ | ⟨-, -, rfl⟩ | ⟨-, -, rfl⟩
    · exact .inr (s.changesOnly_awaitKey.mono (by simp [partsWritten]))
    · exact .inr (changesOnly_refl _ _)
    · exact .inr ((s.changesOnly_keyTaken x).mono (by simp [partsWritten]))
  case halt0 => cases h; exact .inr (changesOnly_refl _ s)
  case cls => cases h; exact .inr (s.changesOnly_setScreen_advance _)
  case jp | jpV0 | seImm | sneImm | seReg | sneReg => cases h; exact .inr (s.changesOnly_jump _)
  case rnd => cases h; exact .inr (changesOnly_regs_draw_pc s _ _ _ _)
  case ldIdx | addIdx | ldGlyph => cases h; exact .inr (s.changesOnly_setIdx_advance _)
  case ldDtVx => cases h; exact .inr (s.changesOnly_setDt_advance _)
  case ldStVx => cases h; exact .inr (s.changesOnly_setSt_advance _)
  all_goals cases h; exact .inr (changesOnly_regs_pc s _ _)

/-- The parts that an execute phase can change, a raised fault included. -/
theorem exec_changesOnly {i : Instr} {s t : State} (h : exec i s = .next t) :
    ChangesOnly (.fault :: partsWritten i) s t := by
  rcases exec_raises_or_changesOnly h with ⟨f, rfl⟩ | hc
  · exact (s.changesOnly_raise f).mono (by simp)
  · exact hc.mono (List.subset_cons_self _ _)

/-! ### General registers -/

theorem exec_reg_kept {i : Instr} {s t : State} {r : Reg} (h : exec i s = .next t) (hr : regWritten i r = false) :
    t.reg r = s.reg r := by
  cases i
  case ldImm x _ | addImm x _ | ldReg x _ | orReg x _ | andReg x _ | xorReg x _ | rnd x _ | ldVxDt x =>
    cases h
    have hx : r ≠ x := by simpa [regWritten] using hr
    exact (State.reg_setReg _ x r _).trans (if_neg hx)
  case addReg x _ | subReg x _ | subnReg x _ =>
    cases h
    obtain ⟨hx, hvf⟩ : r ≠ x ∧ r ≠ .vf := by simpa [regWritten] using hr
    exact (State.reg_setReg _ .vf r _).trans ((if_neg hvf).trans ((State.reg_setReg s x r _).trans (if_neg hx)))
  case shrReg x _ | shlReg x _ =>
    cases h
    obtain ⟨hx, hvf⟩ : r ≠ x ∧ r ≠ .vf := by simpa [regWritten] using hr
    exact (State.reg_setReg _ x r _).trans ((if_neg hx).trans ((State.reg_setReg s .vf r _).trans (if_neg hvf)))
  case drw x y n =>
    rw [exec_drw_eq] at h; split at h <;> cases h
    · have hvf : r ≠ .vf := by simpa [regWritten] using hr
      exact (s.reg_drawn x y n r).trans (if_neg hvf)
    · exact s.raise_reg _ r
  case loadRegs x =>
    rw [exec_loadRegs_eq] at h; split at h <;> cases h
    · exact s.reg_loaded_above x (by simpa [regWritten] using hr)
    · exact s.raise_reg _ r
  case ldVxKey x =>
    have hx : r ≠ x := by simpa [regWritten] using hr
    rcases exec_ldVxKey_cases h with ⟨-, rfl⟩ | ⟨-, -, rfl⟩ | ⟨-, -, rfl⟩
    exacts [rfl, rfl, (s.reg_keyTaken x r).trans (if_neg hx)]
  all_goals exact exec_changesOnly h .regs (by simp [partsWritten]) r

/-! ### Bytes of memory, stack cells, pixels -/

theorem exec_byte_kept {i : Instr} {s t : State} {a : Nat} (h : exec i s = .next t) (ha : ¬byteWritten i s a) :
    t.memRead a = s.memRead a := by
  cases i
  case storeBcd x =>
    simp only [byteWritten, State.base] at ha
    rw [exec_storeBcd_eq] at h; split at h <;> cases h
    · exact s.memRead_stored_outside _ (by rw [length_decimalDigits]; omega)
    · exact State.memRead_congr rfl a
  case storeRegs x =>
    simp only [byteWritten, State.base, regCount] at ha
    rw [exec_storeRegs_eq] at h; split at h <;> cases h
    · exact s.memRead_stored_outside _ (by rw [s.length_firstRegs_regCount]; omega)
    · exact State.memRead_congr rfl a
  all_goals exact exec_changesOnly h .mem (by simp [partsWritten]) a

theorem exec_entry_kept {i : Instr} {s t : State} {k : Nat} (h : exec i s = .next t) (hk : k < 16)
    (hw : ¬entryWritten i s k) : t.stack[k] = s.stack[k] := by
  cases i
  case call nnn =>
    rw [exec_call_eq] at h; split at h <;> cases h
    · next hfree => exact s.stack_called_ne nnn hfree hk hw
    · simp
  all_goals exact exec_changesOnly h .stack (by simp [partsWritten]) k hk

theorem exec_pixel_kept {i : Instr} {s t : State} {px : Fin 64} {py : Fin 32} (h : exec i s = .next t)
    (hp : ¬pixelWritten i s px py) : t.fb.pixel px py = s.fb.pixel px py := by
  cases i
  case cls => exact absurd trivial hp
  case drw x y n =>
    rw [exec_drw_eq] at h; split at h <;> cases h
    · exact s.pixel_drawn_of_not_covers x y n hp
    · simp
  all_goals exact exec_changesOnly h .fb (by simp [partsWritten]) px py

/-- Settles O17: a latch left as it was changes no part, and cell by cell an execute phase keeps what is not in its
row. -/
theorem writesFollowTheAccessMatrix : Obligations.WritesFollowTheAccessMatrix := by
  intro i s t h hfault
  have hparts : ChangesOnly (partsWritten i) s t :=
    (exec_changesOnly h).of_same fun p hmem hnot => by
      cases (List.mem_cons.1 hmem).resolve_right hnot
      exact hfault
  exact ⟨hparts, fun _ => exec_reg_kept h, fun _ => exec_byte_kept h, fun _ hk => exec_entry_kept h hk,
    fun _ _ => exec_pixel_kept h⟩

end Sys2Proof.Machine
end

section
/-! PROOFS. What a step does, whatever it executes: its phases, its faults, what it depends on, the key wait (R87 to
R94, R177, R216). -/

namespace Sys2Proof.Machine

/-! ### The phases of a step, by the word at `pc` (R80, R90) -/

theorem State.fetch_eq_ok_iff {s : State} {w : Word} :
    s.fetch = .ok w ↔ s.pc.toNat + 1 < 0x1000 ∧ s.wordAtPc = w := by
  rw [State.fetch_eq]
  split <;> simp [State.wordAtPc, *]

theorem State.fetch_eq_error_iff {s : State} {f : Fault} :
    s.fetch = .error f ↔ 0x0FFF ≤ s.pc.toNat ∧ f = .memOutOfBounds (max s.pc.toNat 0x1000) := by
  rw [State.fetch_eq]
  split
  · simp; omega
  · simp [eq_comm]; omega

/-- Everything a step can do: `step_cases` with the word and the fetch fault named. -/
theorem step_cases_atPc {s t : State} (h : step s = .next t) :
    (s.fault ≠ none ∧ t = s) ∨
    (0x0FFF ≤ s.pc.toNat ∧ t = s.raise (.memOutOfBounds (max s.pc.toNat 0x1000))) ∨
    (s.pc.toNat + 1 < 0x1000 ∧ decodeWord s.wordAtPc = none ∧ t = s.raise (.illegalOpcode s.wordAtPc)) ∨
    (s.pc.toNat + 1 < 0x1000 ∧ ∃ i u, decodeWord s.wordAtPc = some i ∧ exec i s = .next u ∧
      t = endOfCycle i s u) := by
  rcases step_cases h with ⟨hf, ht⟩ | ⟨-, f, hw, ht⟩ | ⟨-, w, hw, hd, ht⟩ | ⟨-, w, i, u, hw, hd, hu, ht⟩
  · exact .inl ⟨hf, ht⟩
  · obtain ⟨hpc, rfl⟩ := State.fetch_eq_error_iff.1 hw
    exact .inr (.inl ⟨hpc, ht⟩)
  · obtain ⟨hpc, rfl⟩ := State.fetch_eq_ok_iff.1 hw
    exact .inr (.inr (.inl ⟨hpc, hd, ht⟩))
  · obtain ⟨hpc, rfl⟩ := State.fetch_eq_ok_iff.1 hw
    exact .inr (.inr (.inr ⟨hpc, i, u, hd, hu, ht⟩))

/-- What holds of the state before a step, and of every state its execute phase reaches, holds after the step if neither
a raised fault nor the decay of the timers disturbs it. -/
theorem step_preserves {P : State → Prop} {s t : State} (hs : P s) (hraise : ∀ f, P (s.raise f))
    (hdecay : ∀ u : State, P u → P u.timerDecay)
    (hexec : ∀ i u, s.pc.toNat + 1 < 0x1000 → decodeWord s.wordAtPc = some i → exec i s = .next u → P u)
    (h : step s = .next t) : P t := by
  rcases step_cases_atPc h with ⟨-, rfl⟩ | ⟨-, rfl⟩ | ⟨-, -, rfl⟩ | ⟨hpc, i, u, hd, hu, rfl⟩
  · exact hs
  · exact hraise _
  · exact hraise _
  · rcases endOfCycle_cases i s u with he | he <;> rw [he]
    · exact hexec i u hpc hd hu
    · exact hdecay u (hexec i u hpc hd hu)

/-- Settles O6: `endOfCycle` for the two kinds of cycle. -/
theorem stepRunsTheDecodedInstruction : Obligations.StepRunsTheDecodedInstruction := by
  intro s t i hf hpc hd h
  rw [step_of_decoded hf (State.fetch_inBounds hpc) hd h]
  refine ⟨fun hkeep => ?keeps, fun ht hhalt hkey => ?decays⟩
  case keeps =>
    rcases hkeep with ht | hkeep
    · rw [endOfCycle_of_fault ht]
    · rw [endOfCycle_of_not_decays t (decays_eq_false_iff.2 hkeep)]
  case decays =>
    rw [endOfCycle_of_decays ht fun hno => (decays_eq_false_iff.1 hno).elim hhalt hkey]
    rfl

/-- Settles O7: see `exec_next` and `step_next`. -/
theorem executeAlwaysAnswersANextState : Obligations.ExecuteAlwaysAnswersANextState := ⟨exec_next, step_next⟩

/-! ### Faults (R210, R216) -/

theorem State.raise_fault_eq_some_iff {s : State} {f g : Fault} (hf : s.fault = none) :
    (s.raise g).fault = some f ↔ f = g := by
  simp [hf, eq_comm]

/-- What an execute phase that latches `f` executed, by the kind of the fault (R216): a call, a return, a key skip, a
draw, a digit store, a block store or load. -/
theorem exec_fault_cause {i : Instr} {s u : State} {f : Fault} (hf : s.fault = none) (h : exec i s = .next u)
    (hu : u.fault = some f) :
    ((∃ nnn, i = .call nnn) ∧ s.sp.val = 16 ∧ f = .stackOverflow (encode i)) ∨
    (i = .ret ∧ s.sp.val = 0 ∧ f = .stackUnderflow 0x00EE) ∨
    (∃ x, (i = .skp x ∨ i = .sknp x) ∧ 15 < (s.reg x).toNat ∧ f = .badKeyIndex (s.reg x)) ∨
    (∃ x y n, i = .drw x y n ∧ 1 ≤ n.toNat ∧ 0x1000 ≤ s.idx.toNat + n.toNat - 1 ∧
      f = .memOutOfBounds (max s.idx.toNat 0x1000)) ∨
    (∃ x, i = .storeBcd x ∧ 0x1000 ≤ s.idx.toNat + 2 ∧ f = .memOutOfBounds (max s.idx.toNat 0x1000)) ∨
    (∃ x, (i = .storeRegs x ∨ i = .loadRegs x) ∧ 0x1000 ≤ s.idx.toNat + x.val ∧
      f = .memOutOfBounds (max s.idx.toNat 0x1000)) := by
  have hkept (hcompletes : u.fault = s.fault) : False := by cases hf.symm.trans (hcompletes.symm.trans hu)
  have hraised {g : Fault} (hg : u = s.raise g) : f = g := (State.raise_fault_eq_some_iff hf).1 (hg ▸ hu)
  cases i
  case call nnn =>
    rw [exec_call_eq] at h; split at h <;> cases h
    · exact (hkept rfl).elim
    · exact .inl ⟨⟨nnn, rfl⟩, by omega, hraised rfl⟩
  case ret =>
    rw [exec_ret_eq] at h; split at h <;> cases h
    · exact (hkept rfl).elim
    · exact .inr (.inl ⟨rfl, by omega, hraised rfl⟩)
  case skp x =>
    rw [exec_skp_eq] at h; split at h <;> cases h
    · exact (hkept rfl).elim
    · exact .inr (.inr (.inl ⟨x, .inl rfl, by omega, hraised rfl⟩))
  case sknp x =>
    rw [exec_sknp_eq] at h; split at h <;> cases h
    · exact (hkept rfl).elim
    · exact .inr (.inr (.inl ⟨x, .inr rfl, by omega, hraised rfl⟩))
  case drw x y n =>
    rw [exec_drw_eq] at h; split at h <;> cases h
    · exact (hkept rfl).elim
    · exact .inr (.inr (.inr (.inl ⟨x, y, n, rfl, by omega, by omega, hraised rfl⟩)))
  case storeBcd x =>
    rw [exec_storeBcd_eq] at h; split at h <;> cases h
    · exact (hkept rfl).elim
    · exact .inr (.inr (.inr (.inr (.inl ⟨x, rfl, by omega, hraised rfl⟩))))
  case storeRegs x =>
    rw [exec_storeRegs_eq] at h; split at h <;> cases h
    · exact (hkept rfl).elim
    · exact .inr (.inr (.inr (.inr (.inr ⟨x, .inl rfl, by omega, hraised rfl⟩))))
  case loadRegs x =>
    rw [exec_loadRegs_eq, State.setRegsFrom_eq] at h; split at h <;> cases h
    · exact (hkept rfl).elim
    · exact .inr (.inr (.inr (.inr (.inr ⟨x, .inr rfl, by omega, hraised rfl⟩))))
  case ldVxKey x =>
    rcases exec_ldVxKey_cases h with ⟨-, rfl⟩ | ⟨-, -, rfl⟩ | ⟨-, -, rfl⟩
    all_goals exact (hkept rfl).elim
  all_goals cases h; exact (hkept rfl).elim

/-- Settles O13: the fetch, the decoder or the execute phase raised the fault, and the word a stack fault records is the
word at `pc`. -/
theorem eachFaultHasItsCause : Obligations.EachFaultHasItsCause := by
  intro s t f hf h ht
  rcases step_cases_atPc h with ⟨hf', -⟩ | ⟨hpc, rfl⟩ | ⟨hpc, hd, rfl⟩ | ⟨hpc, i, u, hd, hu, rfl⟩
  · exact absurd hf hf'
  · exact .inl ⟨hpc, (State.raise_fault_eq_some_iff hf).1 ht⟩
  · exact .inr (.inl ⟨hpc, hd, (State.raise_fault_eq_some_iff hf).1 ht⟩)
  · rw [endOfCycle_fault] at ht
    have hcause := exec_fault_cause hf hu ht
    rw [encode_of_decodeWord hd] at hcause
    exact .inr (.inr ⟨hpc, i, hd, hcause⟩)

/-! ### A step from a state that differs in what the step does not look at -/

/-- Two states with one latch and one fetch step alike, as far as `R` says, if raising a fault and executing the word at
`pc` do. -/
theorem step_simulates {R : State → State → Prop} {s s' t : State} (hfault : s'.fault = s.fault)
    (hfetch : s'.fetch = s.fetch) (hs : R s s') (hraise : ∀ f, R (s.raise f) (s'.raise f))
    (hexec : ∀ i u, decodeWord s.wordAtPc = some i → exec i s = .next u →
      ∃ u', exec i s' = .next u' ∧ R (endOfCycle i s u) (endOfCycle i s' u'))
    (h : step s = .next t) : ∃ t', step s' = .next t' ∧ R t t' := by
  rcases step_cases h with ⟨hf, rfl⟩ | ⟨hf, f, hw, rfl⟩ | ⟨hf, w, hw, hd, rfl⟩ | ⟨hf, w, i, u, hw, hd, hu, rfl⟩
  · obtain ⟨f, hf⟩ := Option.ne_none_iff_exists'.1 hf
    exact ⟨s', step_of_faulted (hfault.trans hf), hs⟩
  · exact ⟨_, step_of_fetchFault (hfault.trans hf) (hfetch.trans hw), hraise f⟩
  · exact ⟨_, step_of_illegal (hfault.trans hf) (hfetch.trans hw) hd, hraise _⟩
  · obtain ⟨-, rfl⟩ := State.fetch_eq_ok_iff.1 hw
    obtain ⟨u', hu', hR⟩ := hexec i u hd hu
    exact ⟨_, step_of_decoded (hfault.trans hf) (hfetch.trans hw) hd hu', hR⟩

/-! ### The draw (R92, R94) -/

/-- Where the word at `pc` is no `CXNN`, the core that a step reaches is settled by the core. -/
theorem step_core_of_not_rnd {s s' t : State} (hc : s'.toCoreState = s.toCoreState)
    (hd : ∀ x nn, decodeWord s.wordAtPc ≠ some (.rnd x nn)) (h : step s = .next t) :
    ∃ t', step s' = .next t' ∧ t'.toCoreState = t.toCoreState := by
  refine step_simulates (R := fun a b => b.toCoreState = a.toCoreState) (congrArg CoreState.fault hc)
    (State.fetch_core hc) hc (State.raise_core hc) (fun i u hi hu => ?_) h
  obtain ⟨u', hu', hcore⟩ := exec_core hc (.inr fun x nn hrnd => hd x nn (hrnd ▸ hi)) hu
  exact ⟨u', hu', endOfCycle_core hc hcore⟩

theorem CoreState.step_next (rnd : Byte) (c : CoreState) : ∃ d, CoreState.step rnd c = .next d := by
  obtain ⟨t, ht⟩ := Machine.step_next { toCoreState := c, rndIn := [rnd], draws := 0 }
  exact ⟨t.toCoreState, CoreState.step_eq_next.2 ⟨t, ht, rfl⟩⟩

theorem CoreState.step_eq_of_not_rnd {s : State} (rnd rnd' : Byte)
    (hd : ∀ x nn, decodeWord s.wordAtPc ≠ some (.rnd x nn)) :
    CoreState.step rnd s.toCoreState = CoreState.step rnd' s.toCoreState := by
  obtain ⟨t, ht⟩ := Machine.step_next { s with rndIn := [rnd], draws := 0 }
  obtain ⟨t', ht', hcore⟩ := step_core_of_not_rnd (s := { s with rndIn := [rnd], draws := 0 })
    (s' := { s with rndIn := [rnd'], draws := 0 }) rfl hd ht
  rw [CoreState.step_eq_next.2 ⟨t, ht, rfl⟩, CoreState.step_eq_next.2 ⟨t', ht', rfl⟩, hcore]

/-- The operations act on the core, and `step(rnd)` brings its own draw. -/
theorem perform_of_supply {op : HostOp} {s t : State} {r : Reply} (queue : List Byte) (count : Nat)
    (h : perform op s = .next (t, r)) :
    perform op { s with rndIn := queue, draws := count } = .next ({ t with rndIn := queue, draws := count }, r) := by
  cases op
  case step rnd =>
    obtain ⟨c, hc⟩ := CoreState.step_next rnd s.toCoreState
    cases (perform_step hc).symm.trans h
    exact perform_step hc
  case load image =>
    cases h
    simp only [perform, State.hostLoad_eq]
    split <;> rfl
  case setKey c =>
    cases h
    simp only [perform, State.hostSetKey]
    split_ifs <;> rfl
  case clearKey c =>
    cases h
    simp only [perform, State.hostClearKey]
    split_ifs <;> rfl
  all_goals cases h; rfl

/-- Settles O16: a step acts on the core as `Step(rnd)` does, `rnd` being its draw. -/
theorem stepDependsOnTheStateAndTheDrawOnly : Obligations.StepDependsOnTheStateAndTheDrawOnly :=
  ⟨fun _ _ => CoreState.step_of_step, fun _ rnd rnd' => CoreState.step_eq_of_not_rnd rnd rnd',
    fun _ _ _ _ queue count => perform_of_supply queue count⟩

/-! ### The keys and the outputs (R16, R18, R19) -/

/-- `s` with other keys held, another `draw_flag` and another `ST`. -/
def State.withUnread (s : State) (keys : Vector Bool 16) (dirty : Bool) (st : Byte) : State :=
  { s with keys := keys, drawFlag := dirty, st := st }

/-- No execute phase reads `draw_flag` or `ST`, and only the key skips read the keys: with others in their place it
reaches the same state, apart from them. -/
theorem exec_withUnread {i : Instr} {s t : State} {keys : Vector Bool 16} {dirty : Bool} {st : Byte}
    (hkeys : keys = s.keys ∨ ∀ x, i ≠ .skp x ∧ i ≠ .sknp x) (h : exec i s = .next t) :
    ∃ dirty' st', exec i (s.withUnread keys dirty st) = .next (t.withUnread keys dirty' st') ∧
      (dirty = s.drawFlag → dirty' = t.drawFlag) ∧ (st = s.st → st' = t.st) := by
  cases i
  case ret =>
    rw [exec_ret_eq] at h ⊢; split at h <;> cases h
    exacts [⟨_, _, dif_pos ‹_›, id, id⟩, ⟨_, _, dif_neg ‹_›, id, id⟩]
  case call =>
    rw [exec_call_eq] at h ⊢; split at h <;> cases h
    exacts [⟨_, _, dif_pos ‹_›, id, id⟩, ⟨_, _, dif_neg ‹_›, id, id⟩]
  case skp x =>
    cases hkeys.resolve_right fun hne => (hne x).1 rfl
    rw [exec_skp_eq] at h ⊢; split at h <;> cases h
    exacts [⟨_, _, dif_pos ‹_›, id, id⟩, ⟨_, _, dif_neg ‹_›, id, id⟩]
  case sknp x =>
    cases hkeys.resolve_right fun hne => (hne x).2 rfl
    rw [exec_sknp_eq] at h ⊢; split at h <;> cases h
    exacts [⟨_, _, dif_pos ‹_›, id, id⟩, ⟨_, _, dif_neg ‹_›, id, id⟩]
  case drw =>
    rw [exec_drw_eq] at h ⊢; split at h <;> cases h
    exacts [⟨_, _, if_pos ‹_›, fun _ => rfl, id⟩, ⟨_, _, if_neg ‹_›, id, id⟩]
  case storeBcd =>
    rw [exec_storeBcd_eq] at h ⊢; split at h <;> cases h
    exacts [⟨_, _, if_pos ‹_›, id, id⟩, ⟨_, _, if_neg ‹_›, id, id⟩]
  case storeRegs =>
    rw [exec_storeRegs_eq] at h ⊢; split at h <;> cases h
    exacts [⟨_, _, if_pos ‹_›, id, id⟩, ⟨_, _, if_neg ‹_›, id, id⟩]
  case loadRegs =>
    rw [exec_loadRegs_eq, State.setRegsFrom_eq] at h ⊢; split at h <;> cases h
    exacts [⟨_, _, if_pos ‹_›, id, id⟩, ⟨_, _, if_neg ‹_›, id, id⟩]
  case ldVxKey x =>
    rcases exec_ldVxKey_cases h with ⟨hw, rfl⟩ | ⟨hw, hn, rfl⟩ | ⟨hw, hn, rfl⟩
    exacts [⟨_, _, exec_ldVxKey_entry x hw, id, id⟩, ⟨_, _, exec_ldVxKey_spin x hw hn, id, id⟩,
      ⟨_, _, exec_ldVxKey_completion x hw hn, id, id⟩]
  case cls => cases h; exact ⟨_, _, rfl, fun _ => rfl, id⟩
  case ldStVx => cases h; exact ⟨_, _, rfl, id, fun _ => rfl⟩
  all_goals cases h; exact ⟨_, _, rfl, id, id⟩

/-- R19: the keys are the host's to write. -/
theorem exec_keys {i : Instr} {s t : State} (h : exec i s = .next t) : t.keys = s.keys := by
  have hkept : .keys ∉ Part.fault :: partsWritten i := by cases i <;> simp [partsWritten]
  exact Vector.ext fun k hk => exec_changesOnly h .keys hkept ⟨k, hk⟩

theorem exec_keyValue {i : Instr} {s t : State} (h : exec i s = .next t) : t.keyValue = s.keyValue := by
  have hkept : .keyValue ∉ Part.fault :: partsWritten i := by cases i <;> simp [partsWritten]
  exact exec_changesOnly h .keyValue hkept

/-- Settles O18: with `draw_flag` and `ST` as they are, other keys change the keys only. -/
theorem onlyKeyTestsSeeTheKeys : Obligations.OnlyKeyTestsSeeTheKeys := by
  refine ⟨fun i s keys t hi h => ?reads, fun s t h => ?writes⟩
  case reads =>
    obtain ⟨_, _, hexec, hdirty, hst⟩ := exec_withUnread (dirty := s.drawFlag) (st := s.st) (.inr hi) h
    cases hdirty rfl
    cases hst rfl
    exact hexec
  case writes =>
    exact step_preserves (P := fun u => u.keys = s.keys ∧ u.keyValue = s.keyValue) ⟨rfl, rfl⟩ (fun _ => ⟨rfl, rfl⟩)
      (fun _ hu => hu) (fun _ _ _ _ hu => ⟨exec_keys hu, exec_keyValue hu⟩) h

/-- `b` differs from `a` in `draw_flag` and `ST` only. -/
def DiffersInOutputs (a b : State) : Prop := { b with drawFlag := a.drawFlag, st := a.st } = a

theorem endOfCycle_differsInOutputs (i : Instr) {s s' u u' : State} (hs : DiffersInOutputs s s')
    (hu : DiffersInOutputs u u') : DiffersInOutputs (endOfCycle i s u) (endOfCycle i s' u') := by
  have hwaiting : s.waiting = s'.waiting := congrArg (·.waiting) hs.symm
  have hfault : u.fault = u'.fault := congrArg (·.fault) hu.symm
  have hdecays : decays i s = decays i s' := by simp only [decays, hwaiting]
  unfold endOfCycle
  rw [hfault, hdecays]
  split
  · exact congrArg (fun a : State => { a with dt := countDown a.dt, st := countDown u.st }) hu
  · exact hu

/-- Settles O19: from the state with the other outputs, the execute phase differs in them only, and so does the end of
the cycle. -/
theorem outputsDoNotInfluenceTheCore : Obligations.OutputsDoNotInfluenceTheCore := by
  intro s t dirty st h
  refine step_simulates (R := DiffersInOutputs) (s := s) (s' := s.withUnread s.keys dirty st) rfl rfl rfl (fun _ => rfl)
    (fun i u _ hu => ?_) h
  obtain ⟨_, _, hexec, -⟩ := exec_withUnread (dirty := dirty) (st := st) (.inl rfl) hu
  refine ⟨_, hexec, endOfCycle_differsInOutputs i rfl ?_⟩
  rw [← exec_keys hu]
  rfl

/-! ### Self-modifying code (R54) -/

/-- Settles O21: the step stores V0 and V1 at the next `pc` and moves on to it. -/
theorem storeIsSeenByTheNextFetch : Obligations.StoreIsSeenByTheNextFetch := by
  intro s t x hf hx hpc hidx hbound hd h
  have hexec := exec_storeRegs_inBounds x hbound
  cases (step_of_decays hf (by omega) hd hexec hf Bool.noConfusion).symm.trans h
  have hpc' : (s.pc + 2).toNat = s.idx.toNat := by bv_omega
  have hbyte (k : Reg) (hk : k.val ≤ x.val) :
      (s.stored (s.firstRegs (regCount x))).timerDecay.memRead ((s.pc + 2).toNat + k.val) = .ok (s.reg k) := by
    rw [hpc']
    exact State.memRead_stored_firstRegs hbound hk
  exact State.fetch_of_memRead (hbyte 0 (Nat.zero_le _)) (hbyte 1 hx)

/-! ### The key wait (R177) -/

theorem keyWait_not_mem_partsWritten {i : Instr} (h : ∀ x, i ≠ .ldVxKey x) :
    .waiting ∉ partsWritten i ∧ .keyNotify ∉ partsWritten i := by
  cases i
  case ldVxKey x => exact absurd rfl (h x)
  all_goals simp [partsWritten]

/-- Only `FX0A` writes the key-wait state. -/
theorem exec_keyWait_kept {i : Instr} {s t : State} (hi : ∀ x, i ≠ .ldVxKey x) (h : exec i s = .next t) :
    t.waiting = s.waiting ∧ t.keyNotify = s.keyNotify := by
  obtain ⟨hwaiting, hnotify⟩ := keyWait_not_mem_partsWritten hi
  exact ⟨exec_changesOnly h .waiting (by simp [hwaiting]), exec_changesOnly h .keyNotify (by simp [hnotify])⟩

/-- Everything a step can do to the key-wait state: nothing, or the entry or the completion of an `FX0A`, the latter
with the timers left alone. -/
theorem step_keyWait_cases {s t : State} (h : step s = .next t) :
    (t.waiting = s.waiting ∧ t.keyNotify = s.keyNotify) ∨
    (∃ x, decodeWord s.wordAtPc = some (.ldVxKey x) ∧ s.waiting = false ∧ t.pc = s.pc ∧
      t.keyNotify = s.keyNotify) ∨
    (∃ x, decodeWord s.wordAtPc = some (.ldVxKey x) ∧ s.waiting = true ∧ s.keyNotify = true ∧ t = s.keyTaken x) := by
  rcases step_cases_atPc h with ⟨-, rfl⟩ | ⟨-, rfl⟩ | ⟨-, -, rfl⟩ | ⟨hpc, i, u, hd, hu, rfl⟩
  case inr.inr.inr =>
    by_cases hi : ∃ x, i = .ldVxKey x
    case pos =>
      obtain ⟨x, rfl⟩ := hi
      rcases exec_ldVxKey_cases hu with ⟨hw, rfl⟩ | ⟨hw, hn, rfl⟩ | ⟨hw, hn, rfl⟩
      · refine .inr (.inl ⟨x, hd, hw, endOfCycle_pc _ _ _, ?_⟩)
        rcases endOfCycle_cases (.ldVxKey x) s s.awaitKey with he | he <;> rw [he] <;> rfl
      · rw [endOfCycle_of_not_decays _ (by simp [decays, hw])]
        exact .inl ⟨rfl, rfl⟩
      · rw [endOfCycle_of_not_decays _ (by simp [decays, hw])]
        exact .inr (.inr ⟨x, hd, hw, hn, rfl⟩)
    case neg =>
      have hkept := exec_keyWait_kept (fun x hx => hi ⟨x, hx⟩) hu
      rcases endOfCycle_cases i s u with he | he <;> rw [he] <;> exact .inl hkept
  all_goals exact .inl ⟨rfl, rfl⟩

/-- Settles O45: a change of `waiting` is the entry or the completion of an `FX0A`. -/
theorem keyWaitTransitions : Obligations.KeyWaitTransitions := by
  intro s t h
  rcases step_keyWait_cases h with ⟨hw, hn⟩ | ⟨x, hd, hw, hpc, hn⟩ | ⟨x, hd, hw, hn, rfl⟩
  case inl =>
    exact ⟨fun hs ht => by simp [hw, hs] at ht, fun hs ht => by simp [hw, hs] at ht, hn.trans⟩
  case inr.inl =>
    exact ⟨fun _ _ => ⟨⟨x, hd⟩, hpc, hn⟩, fun hw' => absurd hw' (by simp [hw]), hn.trans⟩
  case inr.inr =>
    refine ⟨fun hw' => absurd hw' (by simp [hw]), fun _ _ => ?ends, fun _ => rfl⟩
    case ends =>
      exact ⟨hn, rfl, rfl, rfl, rfl, x, hd, by rw [s.reg_keyTaken, if_pos rfl, keyCode_toNat]⟩

/-- Settles O44: the spin of `FX0A` changes nothing, and its cycle does not decay the timers. -/
theorem waitingCoreIsAFixedPoint : Obligations.WaitingCoreIsAFixedPoint := by
  intro s x hw hn hpc hd
  cases hf : s.fault with
  | some f => exact step_of_faulted hf
  | none =>
    rw [step_of_decoded hf (State.fetch_inBounds hpc) hd (exec_ldVxKey_spin x hw hn),
      endOfCycle_of_not_decays s (by simp [decays, hw])]

end Sys2Proof.Machine
end

section
/-! PROOFS. The invariants of R25, kept by the reset, by every step and by every host operation (R200, R201, R203). -/

namespace Sys2Proof.Machine

/-! ### Neither invariant looks at the supply of draws, and `Inv` looks at neither the latch nor the timers -/

theorem Inv.raise {s : State} (h : Inv s) (f : Fault) : Inv (s.raise f) :=
  ⟨h.memWf, h.notifyWaits, h.pcBound, h.stackBound⟩

theorem Inv.timerDecay {s : State} (h : Inv s) : Inv s.timerDecay :=
  ⟨h.memWf, h.notifyWaits, h.pcBound, h.stackBound⟩

theorem Inv.of_core {s s' : State} (h : Inv s) (hc : s'.toCoreState = s.toCoreState) : Inv s' := by
  obtain ⟨c, queue, count⟩ := s
  obtain ⟨c', queue', count'⟩ := s'
  cases hc
  exact ⟨h.memWf, h.notifyWaits, h.pcBound, h.stackBound⟩

theorem WaitsAtKeyInstruction.of_core {s s' : State} (h : WaitsAtKeyInstruction s)
    (hc : s'.toCoreState = s.toCoreState) : WaitsAtKeyInstruction s' := by
  obtain ⟨c, queue, count⟩ := s
  obtain ⟨c', queue', count'⟩ := s'
  cases hc
  exact h

/-! ### The execute phase and the canonical form of memory (R22) -/

/-- Only the stores write memory. -/
theorem exec_mem_kept {i : Instr} {s t : State} (hi : .mem ∉ partsWritten i) (h : exec i s = .next t) :
    t.mem = s.mem := by
  cases i
  case ret => rw [exec_ret_eq] at h; split at h <;> cases h <;> rfl
  case call => rw [exec_call_eq] at h; split at h <;> cases h <;> rfl
  case skp => rw [exec_skp_eq] at h; split at h <;> cases h <;> rfl
  case sknp => rw [exec_sknp_eq] at h; split at h <;> cases h <;> rfl
  case drw => rw [exec_drw_eq] at h; split at h <;> cases h <;> rfl
  case loadRegs => rw [exec_loadRegs_eq, State.setRegsFrom_eq] at h; split at h <;> cases h <;> rfl
  case ldVxKey => rcases exec_ldVxKey_cases h with ⟨-, rfl⟩ | ⟨-, -, rfl⟩ | ⟨-, -, rfl⟩ <;> rfl
  case storeBcd | storeRegs => simp [partsWritten] at hi
  all_goals cases h; rfl

theorem exec_mem_wf {i : Instr} {s t : State} (hwf : Memory.wf s.mem = true) (h : exec i s = .next t) :
    Memory.wf t.mem = true := by
  cases i
  case storeBcd x =>
    rw [exec_storeBcd_eq] at h; split at h <;> cases h
    · exact Memory.wf_writeAll (by rw [length_decimalDigits]; omega) hwf
    · exact hwf
  case storeRegs x =>
    rw [exec_storeRegs_eq] at h; split at h <;> cases h
    · exact Memory.wf_writeAll (by rw [s.length_firstRegs_regCount]; omega) hwf
    · exact hwf
  all_goals rwa [exec_mem_kept (by simp [partsWritten]) h]

/-! ### The execute phase, `pc` and the stack (R25 e) -/

section
variable {s : State} (hs : Inv s) (hpc : s.pc.toNat + 1 < 0x1000)
include hs hpc

/-- From a word in bounds the farthest target is the one of `BNNN`, 0xFFF + 0xFF (R14). -/
theorem pcChoices_bound {i : Instr} {pc : Word} (h : pc ∈ pcChoices i s) : pc.toNat ≤ 0x10FE := by
  have hkept := hs.pcBound
  have hnext : (s.pc + 2).toNat ≤ 0x10FE := by bv_omega
  have hskip : (s.pc + 4).toNat ≤ 0x10FE := by bv_omega
  cases i
  case jp nnn | call nnn =>
    cases List.mem_singleton.1 h
    rw [BitVec.toNat_ofNat]; have := nnn.isLt; omega
  case jpV0 nnn =>
    cases List.mem_singleton.1 h
    rw [BitVec.toNat_ofNat]; have := nnn.isLt; have := (s.reg 0).isLt; omega
  case ret =>
    simp only [pcChoices] at h
    split_ifs at h with hsp
    · cases List.mem_singleton.1 h
      exact (hs.stackBound (s.sp.val - 1) (by omega)).trans (by decide)
    · simp at h
  case skp | sknp =>
    simp only [pcChoices] at h
    split_ifs at h <;> simp at h <;> subst h <;> assumption
  case seImm | sneImm | seReg | sneReg | ldVxKey =>
    simp only [pcChoices] at h
    split_ifs at h <;> cases List.mem_singleton.1 h <;> assumption
  all_goals cases List.mem_singleton.1 h; assumption

/-- A call in bounds pushes at most 0xFFE + 2 (R15). -/
theorem stack_called_bound (nnn : BitVec 12) (hfree : s.sp.val < 16) (k : Nat)
    (hk : k < (s.called nnn hfree).sp.val) : ((s.called nnn hfree).stack[k]'(by omega)).toNat ≤ 0x1000 := by
  have hk' : k < s.sp.val + 1 := hk
  by_cases htop : k = s.sp.val
  · subst htop
    rw [s.stack_called_top nnn hfree]
    bv_omega
  · rw [s.stack_called_ne nnn hfree (by omega) htop]
    exact hs.stackBound k (by omega)

/-- Nothing but a call adds an entry. -/
theorem exec_stack_bound {i : Instr} {t : State} (h : exec i s = .next t) (k : Nat) (hk : k < t.sp.val) :
    (t.stack[k]'(by omega)).toNat ≤ 0x1000 := by
  have hkept (hstack : ∀ (j : Nat) (hj : j < 16), t.stack[j] = s.stack[j]) (hsp : t.sp.val ≤ s.sp.val) :
      (t.stack[k]'(by omega)).toNat ≤ 0x1000 := by
    rw [hstack]
    exact hs.stackBound k (by omega)
  cases i
  case call nnn =>
    rw [exec_call_eq] at h; split at h <;> cases h
    case isTrue hfree => exact stack_called_bound hs hpc nnn hfree k hk
    case isFalse => exact hs.stackBound k hk
  case ret =>
    rw [exec_ret_eq] at h; split at h <;> cases h
    case isTrue =>
      have hk' : k < s.sp.val - 1 := hk
      exact hs.stackBound k (by omega)
    case isFalse => exact hs.stackBound k hk
  all_goals
    have hframe := exec_changesOnly h
    exact hkept (hframe .stack (by simp [partsWritten])) (Fin.le_of_eq (hframe .sp (by simp [partsWritten])))

theorem Inv.exec {i : Instr} {t : State} (h : exec i s = .next t) : Inv t where
  memWf := exec_mem_wf hs.memWf h
  notifyWaits := by
    by_cases hi : ∃ x, i = .ldVxKey x
    case pos =>
      obtain ⟨x, rfl⟩ := hi
      rcases exec_ldVxKey_cases h with ⟨-, rfl⟩ | ⟨-, -, rfl⟩ | ⟨-, -, rfl⟩
      exacts [fun _ => rfl, hs.notifyWaits, Bool.noConfusion]
    case neg =>
      obtain ⟨hwaiting, hnotify⟩ := exec_keyWait_kept (fun x hx => hi ⟨x, hx⟩) h
      rw [hwaiting, hnotify]
      exact hs.notifyWaits
  pcBound := by
    rcases exec_raises_or_completesAs h with ⟨f, rfl⟩ | hc
    · exact hs.pcBound
    · exact pcChoices_bound hs hpc hc.pc
  stackBound := exec_stack_bound hs hpc h

end

/-- Settles O55: the execute phase of a word in bounds keeps the invariant, which says nothing of the latch and the
timers. -/
theorem stepKeepsTheInvariant : Obligations.StepKeepsTheInvariant := fun _ _ hs =>
  step_preserves hs hs.raise (fun _ => Inv.timerDecay) fun _ _ hpc _ => hs.exec hpc

/-! ### The key wait (R25 f, R179) -/

/-- An `FX0A` that waits leaves `pc` and memory; any other instruction leaves the key wait, and does not run while the
core waits. -/
theorem WaitsAtKeyInstruction.exec {i : Instr} {s t : State} (hs : WaitsAtKeyInstruction s)
    (hpc : s.pc.toNat + 1 < 0x1000) (hd : decodeWord s.wordAtPc = some i) (h : exec i s = .next t) :
    WaitsAtKeyInstruction t := by
  by_cases hi : ∃ x, i = .ldVxKey x
  case pos =>
    obtain ⟨x, rfl⟩ := hi
    rcases exec_ldVxKey_cases h with ⟨-, rfl⟩ | ⟨-, -, rfl⟩ | ⟨-, -, rfl⟩
    exacts [fun _ => ⟨hpc, x, hd⟩, hs, Bool.noConfusion]
  case neg =>
    intro hw
    rw [(exec_keyWait_kept (fun x hx => hi ⟨x, hx⟩) h).1] at hw
    obtain ⟨-, x, hx⟩ := hs hw
    exact absurd ⟨x, Option.some.inj (hd.symm.trans hx)⟩ hi

/-- Settles O56: see `WaitsAtKeyInstruction.exec`; neither the latch nor a timer plays a part. -/
theorem stepKeepsTheKeyWait : Obligations.StepKeepsTheKeyWait := fun _ _ hs =>
  step_preserves hs (fun _ => hs) (fun _ hu => hu) fun _ _ hpc hd => hs.exec hpc hd

/-! ### Reset (R24) -/

theorem State.reset_inv : Inv State.reset :=
  ⟨State.reset_mem_wf, Bool.noConfusion, by decide, fun _ hk => absurd hk (Nat.not_lt_zero _)⟩

theorem WaitsAtKeyInstruction.of_idle {s : State} (hw : s.waiting = false) : WaitsAtKeyInstruction s := fun hw' => by
  simp [hw] at hw'

/-- Settles O54: nothing is listed, in use or waited for. -/
theorem resetMeetsTheInvariant : Obligations.ResetMeetsTheInvariant := ⟨State.reset_inv, .of_idle rfl⟩

/-- Settles O48: the word at 0x200, above the font, is the sentinel. -/
theorem unloadedCoreIdles : Obligations.UnloadedCoreIdles := by
  have hzero {a : Nat} (hlo : 0x050 ≤ a) (hhi : a < 0x1000) : State.reset.memRead a = .ok 0 := by
    rw [State.memRead_of_reset rfl hhi, Memory.blank_above_font hlo]
  exact step_of_sentinel (hzero (by decide) (by decide)) (hzero (by decide) (by decide))

/-! ### Host operations -/

theorem Inv.hostLoad {s : State} (hs : Inv s) (image : List Byte) : Inv (s.hostLoad image) := by
  rw [State.hostLoad_eq]
  split
  · exact ⟨Memory.wf_writeAll (by omega) hs.memWf, hs.notifyWaits, hs.pcBound, hs.stackBound⟩
  · exact hs.raise _

/-- A press sets `key_notify` only while the core waits. -/
theorem Inv.hostSetKey {s : State} (hs : Inv s) (c : Nat) : Inv (s.hostSetKey c) := by
  by_cases hc : c < 16
  · rw [s.hostSetKey_of_key hc]
    refine ⟨hs.memWf, fun hn => ?_, hs.pcBound, hs.stackBound⟩
    by_cases hw : s.waiting = true
    · exact hw
    · exact hs.notifyWaits (by simpa [hw] using hn)
  · rwa [s.hostSetKey_of_noKey (by omega)]

theorem Inv.hostClearKey {s : State} (hs : Inv s) (c : Nat) : Inv (s.hostClearKey c) := by
  by_cases hc : c < 16
  · rw [s.hostClearKey_of_key hc]
    exact ⟨hs.memWf, hs.notifyWaits, hs.pcBound, hs.stackBound⟩
  · rwa [s.hostClearKey_of_noKey (by omega)]

theorem WaitsAtKeyInstruction.hostSetKey {s : State} (hs : WaitsAtKeyInstruction s) (c : Nat) :
    WaitsAtKeyInstruction (s.hostSetKey c) := by
  by_cases hc : c < 16
  · rw [s.hostSetKey_of_key hc]
    exact hs
  · rwa [s.hostSetKey_of_noKey (by omega)]

theorem WaitsAtKeyInstruction.hostClearKey {s : State} (hs : WaitsAtKeyInstruction s) (c : Nat) :
    WaitsAtKeyInstruction (s.hostClearKey c) := by
  by_cases hc : c < 16
  · rw [s.hostClearKey_of_key hc]
    exact hs
  · rwa [s.hostClearKey_of_noKey (by omega)]

/-- Neither outcome of a load touches the key wait. -/
theorem State.hostLoad_waiting (s : State) (image : List Byte) : (s.hostLoad image).waiting = s.waiting := by
  rw [State.hostLoad_eq]
  split <;> rfl

/-- Settles O57: a step of the host is a step of the core, and the other operations are few writes each. -/
theorem hostOperationsKeepTheInvariants : Obligations.HostOperationsKeepTheInvariants := by
  intro s t op r h
  rcases perform_cases h with ⟨rfl, rfl⟩ | ⟨image, rfl, rfl⟩ | ⟨rnd, c, rfl, hc, rfl⟩ | ⟨c, rfl, rfl⟩ |
    ⟨c, rfl, rfl⟩ | ⟨rfl, rfl⟩ | ⟨-, rfl⟩
  · exact ⟨fun _ => State.reset_inv.of_core rfl, fun _ _ => .of_idle rfl⟩
  · exact ⟨fun hs => hs.hostLoad image,
      fun hduty _ => .of_idle ((s.hostLoad_waiting image).trans (hduty image rfl))⟩
  · obtain ⟨u, hu, rfl⟩ := CoreState.step_eq_next.1 hc
    have hkeepsInv := (stepKeepsTheInvariant _ _ · hu)
    have hkeepsWait := (stepKeepsTheKeyWait _ _ · hu)
    exact ⟨fun hs => (hkeepsInv (hs.of_core rfl)).of_core rfl, fun _ hs => (hkeepsWait (hs.of_core rfl)).of_core rfl⟩
  · exact ⟨fun hs => hs.hostSetKey c, fun _ hs => hs.hostSetKey c⟩
  · exact ⟨fun hs => hs.hostClearKey c, fun _ hs => hs.hostClearKey c⟩
  · exact ⟨fun hs => ⟨hs.memWf, hs.notifyWaits, hs.pcBound, hs.stackBound⟩, fun _ hs => hs⟩
  · exact ⟨id, fun _ => id⟩

/-- Settles O58, by induction on the history. -/
theorem reachableStatesMeetTheInvariants : Obligations.ReachableStatesMeetTheInvariants := by
  obtain ⟨hinv, hwaits⟩ := resetMeetsTheInvariant
  constructor
  · intro s hs
    induction hs with
    | reset => exact hinv
    | after _ _ h ih => exact (hostOperationsKeepTheInvariants _ _ _ _ h).1 ih
  · intro s hs
    induction hs with
    | reset => exact ⟨hinv, hwaits⟩
    | after _ hduty h ih =>
      obtain ⟨hkeepsInv, hkeepsWait⟩ := hostOperationsKeepTheInvariants _ _ _ _ h
      exact ⟨hkeepsInv ih.1, hkeepsWait hduty ih.2⟩

/-- Settles O47: `step(rnd)` answers since every step does, and the others answer by their definitions. -/
theorem hostOperationsAlwaysAnswer : Obligations.HostOperationsAlwaysAnswer := by
  refine ⟨fun s => ⟨s.hostReset, rfl⟩, fun op s => ?_⟩
  cases op
  case step rnd =>
    obtain ⟨c, hc⟩ := CoreState.step_next rnd s.toCoreState
    exact ⟨_, perform_step hc⟩
  all_goals exact ⟨_, rfl⟩

/-! ### A core that is faulted (R201, R25 g) -/

section
variable {s : State} {f : Fault} (hf : s.fault = some f)
include hf

/-- R87: `step(rnd)` does on a faulted core what every step does there. -/
theorem CoreState.step_of_faulted (rnd : Byte) : CoreState.step rnd s.toCoreState = .next s.toCoreState :=
  CoreState.step_eq_next.2 ⟨_, Machine.step_of_faulted (f := f) hf, rfl⟩

theorem State.changesOnly_hostLoad_of_faulted (image : List Byte) : ChangesOnly [.mem] s (s.hostLoad image) := by
  rw [State.hostLoad_eq]
  split
  · exact changesOnly_mem s _
  · rw [State.raise_of_some _ hf]
    exact changesOnly_refl _ s

/-- On a faulted core a load changes memory only, and every other operation but a reset the key flags, the key delivery
and `draw_flag` only. -/
theorem perform_changesOnly_of_faulted {op : HostOp} {t : State} {r : Reply} (hop : op ≠ .reset)
    (h : perform op s = .next (t, r)) :
    ((∃ image, op = .load image) ∧ ChangesOnly [.mem] s t) ∨
    ((∀ image, op ≠ .load image) ∧ ChangesOnly [.keys, .keyValue, .keyNotify, .drawFlag] s t) := by
  rcases perform_cases h with ⟨hreset, -⟩ | ⟨image, rfl, rfl⟩ | ⟨rnd, c, rfl, hc, rfl⟩ | ⟨c, rfl, rfl⟩ |
    ⟨c, rfl, rfl⟩ | ⟨rfl, rfl⟩ | ⟨hread, rfl⟩
  · exact absurd hreset hop
  · exact .inl ⟨⟨image, rfl⟩, State.changesOnly_hostLoad_of_faulted hf image⟩
  · cases (CoreState.step_of_faulted hf rnd).symm.trans hc
    exact .inr ⟨nofun, changesOnly_refl _ s⟩
  · refine .inr ⟨nofun, ?_⟩
    by_cases hkey : c < 16
    · exact (s.changesOnly_hostSetKey hkey).mono (by simp)
    · rw [s.hostSetKey_of_noKey (by omega)]
      exact changesOnly_refl _ s
  · refine .inr ⟨nofun, ?_⟩
    by_cases hkey : c < 16
    · exact (s.changesOnly_hostClearKey hkey).mono (by simp)
    · rw [s.hostClearKey_of_noKey (by omega)]
      exact changesOnly_refl _ s
  · exact .inr ⟨nofun, changesOnly_keys_drawFlag s s.keys s.keyValue s.keyNotify false⟩
  · exact .inr ⟨fun image hload => by simp [hload] at hread, changesOnly_refl _ _⟩

end

/-- Settles O53: the latch is in neither list of parts, memory is in the first only, and a step changes nothing. -/
theorem faultedCoreKeepsItsState : Obligations.FaultedCoreKeepsItsState := by
  intro s t op r f hf hop h
  have hstep (rnd : Byte) (hrnd : op = .step rnd) : t = s := by
    subst hrnd
    cases (perform_step (CoreState.step_of_faulted hf rnd)).symm.trans h
    rfl
  rcases perform_changesOnly_of_faulted hf hop h with ⟨⟨image, rfl⟩, hc⟩ | ⟨hnoLoad, hc⟩
  · exact ⟨Eq.trans (hc .fault (by simp)) hf, hc.mono (by simp), fun hno => absurd rfl (hno image), hstep⟩
  · exact ⟨Eq.trans (hc .fault (by simp)) hf, hc.mono (by simp), fun _ => hc .mem (by simp), hstep⟩

end Sys2Proof.Machine
end
